-- ==== Sys2Proof/Word.lean ====
section
/-! DEFINITION. The words of the core: the widths the spec fixes (00_scope.md R9, R10) and what is offered to the
core to be decoded, a host access (20_memory.md R64) or a pending command word (10_state.md R41). -/

namespace Sys2Proof

/-- u8: a wire byte, a slave address, a function code (R9). -/
abbrev Byte := BitVec 8

/-- u16: a register address, count, value or CRC (R9). -/
abbrev Half := BitVec 16

/-- u32: one host access, one command word (R64, R90). -/
abbrev Word := BitVec 32

/-- An offset in the 4 KiB host window, the only address bits the core decodes (R60). -/
abbrev Offset := BitVec 12

/-- The widths a bus access can have; only `w32` is legal (R64). -/
inductive Width where
  | w8
  | w16
  | w32
  | w64
  | burst
  deriving DecidableEq, Repr

/-- One host access to the window: a load, or a store of `v` (for a width other than 32 bits the written data
are of no account: the access is a BusError, R64). -/
inductive HostAccess where
  | read (off : Offset) (width : Width)
  | write (off : Offset) (width : Width) (v : Word)
  deriving DecidableEq, Repr

/-- What one step gives the decoder: the Engine's pending command word, or one access of the Host (R120). -/
inductive Cycle where
  | command (w : Word)
  | access (a : HostAccess)
  deriving DecidableEq, Repr

end Sys2Proof
end

