-- ==== Sys2Proof/Config.lean ====
section
/-! DEFINITION. The implementation parameters at the values this hardware takes (00_scope.md R8), the platform's
open parameters (92_eei_decisions.md D13, D18) and the free values (93_implementation_defined.md U1, U2). -/

namespace Sys2Proof

/-- Bytes of TXBUF (R8). -/
abbrev Config.txCap : Nat := 256

/-- Bytes of RXBUF, the largest accepted RX_LEN (R8). -/
abbrev Config.rxCap : Nat := 256

/-- Entries of the write-value FIFO (R8). -/
abbrev Config.wfifoDepth : Nat := 123

/-- Entries of RDATA (R8). -/
abbrev Config.rdataCap : Nat := 125

/-- Bytes of the host window (R8, R60). -/
abbrev Config.window : Nat := 4096

/-- The platform's choice of the window's place, in units of the window (R60: CORE_BASE is OPEN and 4096-aligned). -/
opaque Config.corePage : Nat

/-- CORE_BASE (R60). -/
def Config.coreBase : Nat := Config.corePage * Config.window

/-- The electrical level that means "asserted" at the interrupt controller (R252). -/
inductive Polarity where
  | activeHigh
  | activeLow
  deriving DecidableEq, Repr, Inhabited

/-- Whether the interrupt controller takes the line by its level or by its asserting edge (R252). -/
inductive Trigger where
  | level
  | edge
  deriving DecidableEq, Repr, Inhabited

/-- What R252 puts into the parameter IRQ_LINE: the controller `irq` is routed to, its number there, its polarity and
its level-or-edge handling (log entry 11 for the form). -/
structure IrqLine where
  controller : Nat
  number : Nat
  polarity : Polarity
  trigger : Trigger
  deriving DecidableEq, Repr, Inhabited

/-- IRQ_LINE: the platform's routing and handling of `irq` (R252, OPEN; log entry 11). -/
opaque Config.irqLine : IrqLine

/-- FREE VALUE: the byte at offset `addr` after the `epoch`-th reset while nothing has written it
(R44: any u8 per byte, any u16 per RDATA entry). Log entry 4. -/
opaque Config.freeByte : (epoch addr : Nat) → Byte

/-- FREE VALUE: the `n`-th draw of a read made while the core is busy (R42, R125: any u32, fresh for each read).
Log entry 5. -/
opaque Config.freeWord : (n : Nat) → Word

end Sys2Proof
end

