-- ==== Sys2Proof/Syntax.lean ====
section
/-! DEFINITION. The instructions: one constructor for each row of spec/opcode_table.json. The ten command rows are
what the Engine executes (30_encoding.md R94, R95); the others are the Host's operations (30_encoding.md R97). -/

namespace Sys2Proof

inductive Instr where
  /-- CRC.COMPUTE (41_crc16.md R154). -/
  | crcCompute
  /-- CRC.CHECK (41_crc16.md R155). -/
  | crcCheck
  /-- BUILD.RHR (42_frame_builder.md R172). -/
  | buildRhr
  /-- BUILD.WSR (42_frame_builder.md R174). -/
  | buildWsr
  /-- BUILD.WMR (42_frame_builder.md R176). -/
  | buildWmr
  /-- PARSE.RHR (43_frame_parser.md R215). -/
  | parseRhr
  /-- PARSE.WSR (43_frame_parser.md R218). -/
  | parseWsr
  /-- PARSE.WMR (43_frame_parser.md R219). -/
  | parseWmr
  /-- WFIFO.CLEAR (42_frame_builder.md R181). -/
  | wfifoClear
  /-- Any command word that is not legal (40_command_interface.md R129). -/
  | illegalCommand (w : Word)
  /-- `wr CTRL, v` (40_command_interface.md R133). -/
  | wrCtrl (v : Word)
  /-- `wr STATUS, v` (40_command_interface.md R132). -/
  | wrStatus (v : Word)
  /-- `wr CMD, w` (40_command_interface.md R122). -/
  | wrCmd (w : Word)
  /-- `wr SLAVE, v` (40_command_interface.md R131). -/
  | wrSlave (v : Word)
  /-- `wr ARG0, v` (40_command_interface.md R131). -/
  | wrArg0 (v : Word)
  /-- `wr ARG1, v` (40_command_interface.md R131). -/
  | wrArg1 (v : Word)
  /-- `wr RX_LEN, v` (40_command_interface.md R131). -/
  | wrRxLen (v : Word)
  /-- `wr CRC, v` (41_crc16.md R152). -/
  | wrCrc (v : Word)
  /-- `feed b`, the write of CRC_DATA (41_crc16.md R153). -/
  | feed (v : Word)
  /-- `push v`, the write of WFIFO (42_frame_builder.md R180). -/
  | push (v : Word)
  /-- `wr RXBUF+k, v`, k a multiple of 4 (40_command_interface.md R131). -/
  | wrRxbuf (k : Byte) (v : Word)
  /-- Any other aligned 32-bit write (40_command_interface.md R121). -/
  | wrRoOrReserved (off : Offset) (v : Word)
  /-- `rd NAME`, any aligned 32-bit read (40_command_interface.md R130). -/
  | rdName (off : Offset)
  /-- An access of the wrong width or alignment (60_exceptions.md R245). -/
  | busError (a : HostAccess)
  deriving DecidableEq, Repr

end Sys2Proof
end

