-- ==== Sys2Proof/Decode.lean ====
section
/-! DEFINITION. The decoder of command words (30_encoding.md R90 to R95) and of host accesses (20_memory.md R64,
40_command_interface.md R121), the encoder written from the same tables, and the opcode table's numbering of bits.
The decoder is total and has no rejection of its own: the spec gives every 32-bit command word and every access a
meaning, and what it rejects it rejects by name, as ILLEGAL_COMMAND (R95) or BusError (R64). -/

namespace Sys2Proof

/-! The offsets of the registers and buffers (10_state.md R23). -/

abbrev Reg.ctrl : Offset := 0x000
abbrev Reg.status : Offset := 0x004
abbrev Reg.cmd : Offset := 0x008
abbrev Reg.slave : Offset := 0x00C
abbrev Reg.arg0 : Offset := 0x010
abbrev Reg.arg1 : Offset := 0x014
abbrev Reg.txLen : Offset := 0x018
abbrev Reg.rxLen : Offset := 0x01C
abbrev Reg.crc : Offset := 0x020
abbrev Reg.crcData : Offset := 0x024
abbrev Reg.wfifo : Offset := 0x028
abbrev Reg.err : Offset := 0x02C
abbrev Reg.result0 : Offset := 0x030
abbrev Reg.result1 : Offset := 0x034

/-- The first offset of TXBUF (R37), of RXBUF (R38) and of RDATA (R39). -/
abbrev Reg.txbuf : Nat := 0x100
abbrev Reg.rxbuf : Nat := 0x200
abbrev Reg.rdata : Nat := 0x300

/-- The last offset of RDATA (R23, R39, R61, R130; log entry 19). -/
abbrev Reg.rdataEnd : Nat := 0x3F3

/-- The offset of byte `k` of RXBUF (R65). -/
def rxbufOffset (k : Byte) : Offset := 0x2#4 ++ k

/-- `off mod 4 = 0` (R64). -/
def wordAligned (off : Offset) : Bool := off.extractLsb' 0 2 == 0#2

/-- The offset lies in RXBUF, 0x200 to 0x2FF (R23). -/
def inRxbuf (off : Offset) : Bool := off.extractLsb' 8 4 == 0x2#4

/-- The access is one the core takes: 32 bits wide and aligned (R64). -/
def HostAccess.legal : HostAccess → Bool
  | .read off width => width == .w32 && wordAligned off
  | .write off width _ => width == .w32 && wordAligned off

/-! The fields of the command word (R90) and the rule of legality (R93). -/

def cmdOp (w : Word) : BitVec 4 := w.extractLsb' 0 4
def cmdRsv0 (w : Word) : BitVec 4 := w.extractLsb' 4 4
def cmdFc (w : Word) : Byte := w.extractLsb' 8 8
def cmdRsv1 (w : Word) : Half := w.extractLsb' 16 16

/-- `legal(w)` of R93. -/
def legalCommand (w : Word) : Bool :=
  cmdRsv0 w == 0 && cmdRsv1 w == 0 &&
    (((cmdOp w == 0x1 || cmdOp w == 0x2 || cmdOp w == 0x5) && cmdFc w == 0x00) ||
     ((cmdOp w == 0x3 || cmdOp w == 0x4) && (cmdFc w == 0x03 || cmdFc w == 0x06 || cmdFc w == 0x10)))

/-- The command map of R94: the full 32-bit word is matched; every other word is illegal (R95). -/
def decodeCommand (w : Word) : Instr :=
  if w = 0x00000001#32 then .crcCompute
  else if w = 0x00000002#32 then .crcCheck
  else if w = 0x00000303#32 then .buildRhr
  else if w = 0x00000603#32 then .buildWsr
  else if w = 0x00001003#32 then .buildWmr
  else if w = 0x00000304#32 then .parseRhr
  else if w = 0x00000604#32 then .parseWsr
  else if w = 0x00001004#32 then .parseWmr
  else if w = 0x00000005#32 then .wfifoClear
  else .illegalCommand w

/-- The dispatch of an aligned 32-bit write by its offset (R121). -/
def decodeWrite (off : Offset) (v : Word) : Instr :=
  if off = Reg.ctrl then .wrCtrl v
  else if off = Reg.status then .wrStatus v
  else if off = Reg.cmd then .wrCmd v
  else if off = Reg.slave then .wrSlave v
  else if off = Reg.arg0 then .wrArg0 v
  else if off = Reg.arg1 then .wrArg1 v
  else if off = Reg.rxLen then .wrRxLen v
  else if off = Reg.crc then .wrCrc v
  else if off = Reg.crcData then .feed v
  else if off = Reg.wfifo then .push v
  else if inRxbuf off then .wrRxbuf (off.extractLsb' 0 8) v
  else .wrRoOrReserved off v

/-- A host access: BusError for a wrong width or alignment, whatever else holds (R64, R246). -/
def decodeAccess (a : HostAccess) : Instr :=
  if a.legal then
    match a with
    | .read off _ => .rdName off
    | .write off _ v => decodeWrite off v
  else .busError a

def decode : Cycle → Instr
  | .command w => decodeCommand w
  | .access a => decodeAccess a

/-- An aligned 32-bit write. -/
def wr (off : Offset) (v : Word) : HostAccess := .write off .w32 v

/-- An aligned 32-bit read. -/
def rd (off : Offset) : HostAccess := .read off .w32

/-- The cycle an instruction stands for: its command word (R94) or its access (R23, R97). -/
def encode : Instr → Cycle
  | .crcCompute => .command 0x00000001
  | .crcCheck => .command 0x00000002
  | .buildRhr => .command 0x00000303
  | .buildWsr => .command 0x00000603
  | .buildWmr => .command 0x00001003
  | .parseRhr => .command 0x00000304
  | .parseWsr => .command 0x00000604
  | .parseWmr => .command 0x00001004
  | .wfifoClear => .command 0x00000005
  | .illegalCommand w => .command w
  | .wrCtrl v => .access (wr Reg.ctrl v)
  | .wrStatus v => .access (wr Reg.status v)
  | .wrCmd w => .access (wr Reg.cmd w)
  | .wrSlave v => .access (wr Reg.slave v)
  | .wrArg0 v => .access (wr Reg.arg0 v)
  | .wrArg1 v => .access (wr Reg.arg1 v)
  | .wrRxLen v => .access (wr Reg.rxLen v)
  | .wrCrc v => .access (wr Reg.crc v)
  | .feed v => .access (wr Reg.crcData v)
  | .push v => .access (wr Reg.wfifo v)
  | .wrRxbuf k v => .access (wr (rxbufOffset k) v)
  | .wrRoOrReserved off v => .access (wr off v)
  | .rdName off => .access (rd off)
  | .busError a => .access a

/-! The platform's addresses (R60). -/

/-- The address lies in the core's window. -/
def inWindow (addr : Nat) : Prop := Config.coreBase ≤ addr ∧ addr < Config.coreBase + Config.window

/-- `offset = address - CORE_BASE`, bits 11:0 (R60). -/
def offsetOf (addr : Nat) : Offset := BitVec.ofNat 12 (addr - Config.coreBase)

/-! The opcode table's numbering of bits (spec/opcode_table.json; log entry 12). -/

/-- The cycle a word of the opcode table stands for. A row of the command format has 32 bits, the command word. A
row of the write format has the 12 bits of the offset and gives the written value no bits, so that the value is 0. -/
def tableCycle (nbits w : Nat) : Cycle :=
  if nbits ≤ 16 ∧ w < Config.window then .access (wr (BitVec.ofNat 12 w) 0) else .command (BitVec.ofNat 32 w)

def decodeTableWord (nbits w : Nat) : Option Instr := some (decode (tableCycle nbits w))

end Sys2Proof
end

