-- ==== Sys2Proof/WellFormed.lean ====
section
/-! DEFINITION. Which instruction terms stand for a row of the opcode table: the catch-all rows take only what no
other row takes (30_encoding.md R95, spec/opcode_table.json), buffer offsets are multiples of 4 (20_memory.md R64). -/

namespace Sys2Proof

/-- The offsets of the ten registers a write does something at (R121). -/
def writableRegisters : List Offset :=
  [Reg.ctrl, Reg.status, Reg.cmd, Reg.slave, Reg.arg0, Reg.arg1, Reg.rxLen, Reg.crc, Reg.crcData, Reg.wfifo]

def Instr.wellFormed : Instr → Bool
  | .illegalCommand w => !legalCommand w
  | .wrRxbuf k _ => k.extractLsb' 0 2 == 0#2
  | .wrRoOrReserved off _ => wordAligned off && !writableRegisters.contains off && !inRxbuf off
  | .rdName off => wordAligned off
  | .busError a => !a.legal
  | .crcCompute | .crcCheck | .buildRhr | .buildWsr | .buildWmr | .parseRhr | .parseWsr | .parseWmr
  | .wfifoClear => true
  | .wrCtrl _ | .wrStatus _ | .wrCmd _ | .wrSlave _ | .wrArg0 _ | .wrArg1 _ | .wrRxLen _ | .wrCrc _
  | .feed _ | .push _ => true

end Sys2Proof
end

