-- ==== Sys2Proof/Machine/State.lean ====
section
/-! DEFINITION. The state of the core (10_state.md R20 to R44), the events of its outside world, and the reasons a
step can stop. Every register the spec names has one field; STATUS.ERR, STATUS.WCNT and irq are computed from them. -/

namespace Sys2Proof.Machine

/-- ERR.CODE (60_exceptions.md R240). The values 9 to 15 are never written by the core and have no name here
(log entry 14). -/
inductive ErrorCode where
  | none
  | shortFrame
  | addressMismatch
  | deviceException
  | functionMismatch
  | crcMismatch
  | byteCountMismatch
  | encodingError
  | illegalCommand
  deriving DecidableEq, Repr

/-- What may happen between two steps of the machine (40_command_interface.md R120): a host access, the Engine's
taking its step, a hardware reset. Log entry 1. -/
inductive Event where
  | access (a : HostAccess)
  | engine
  | hardwareReset
  deriving DecidableEq, Repr

/-- Why the machine stops with a fault. -/
inductive Fault where
  /-- The host access `a` has the wrong width or alignment (60_exceptions.md R245). Raised by `busError` only. Safe:
  the core's state is that before the access, and nothing is proved of what the Host does next (log entry 8). -/
  | busError (a : HostAccess)
  deriving DecidableEq, Repr

/-- Why an instruction has no meaning. -/
inductive Refusal where
  /-- The instruction has no meaning yet. Raised by an arm of `exec` only; no arm raises it. Safe. -/
  | notModelled (mnemonic : String)
  deriving DecidableEq, Repr

structure State where
  /-- CTRL.IRQ_EN (R24). -/
  irqEn : Bool
  /-- STATUS.BUSY (R25). -/
  busy : Bool
  /-- STATUS.DONE (R25). -/
  done : Bool
  /-- STATUS.IGN (R25). -/
  ign : Bool
  /-- SLAVE.ADDR (R27). -/
  slave : Byte
  /-- ARG0.A (R28). -/
  arg0 : Half
  /-- ARG1.V (R29). -/
  arg1 : Half
  /-- TX_LEN.LEN (R36). -/
  txLen : BitVec 9
  /-- RX_LEN.LEN (R30). -/
  rxLen : BitVec 9
  /-- CRC.ACC (R31). -/
  crcAcc : Half
  /-- ERR.CODE (R33). -/
  errCode : ErrorCode
  /-- ERR.EXC (R33). -/
  errExc : Byte
  /-- RESULT0.RES0 (R34). -/
  res0 : Half
  /-- RESULT1.RES1 (R35). -/
  res1 : Half
  /-- Q, the write-value FIFO, oldest value first (R40). -/
  fifo : List Half
  /-- WOVF (R40). -/
  wovf : Bool
  /-- PEND, the pending command word (R41). -/
  pend : Option Word
  /-- The bytes of TXBUF, RXBUF and RDATA written since the last reset, by window offset (R37 to R39). -/
  mem : List Host.Cell
  /-- The model's own: how many resets there have been, so that the contents of unwritten bytes are fresh free
  values after each (R44; log entry 4). -/
  epoch : Nat
  /-- The model's own: how many draws reads while busy have taken (R125; log entry 5). -/
  draws : Nat
  /-- The model's own: the data the last host read returned (R10, R130; log entry 7). -/
  readData : Word
  /-- The model's own: what the outside world does next, first event first (R71; log entry 1). -/
  agenda : List Event
  deriving DecidableEq, Repr

/-- The machine right after reset: the values of R44, nothing written to the buffers. -/
def State.reset : State where
  irqEn := false
  busy := false
  done := false
  ign := false
  slave := 0x00
  arg0 := 0x0000
  arg1 := 0x0000
  txLen := 0
  rxLen := 0
  crcAcc := 0xFFFF
  errCode := .none
  errExc := 0
  res0 := 0
  res1 := 0
  fifo := []
  wovf := false
  pend := none
  mem := []
  epoch := 0
  draws := 0
  readData := 0
  agenda := []

end Sys2Proof.Machine
end

