-- ==== Sys2Proof/Machine/Operands.lean ====
section
/-! DEFINITION. Operand forms: the parts of a value (00_scope.md R10), the fields a register keeps of a written word
(10_state.md R27 to R32), the CRC function (41_crc16.md R150, R151) and the request frames (30_encoding.md R99 to R102). -/

namespace Sys2Proof.Machine

/-! Parts of values (R10, R65). -/

def hi8 (v : Half) : Byte := v.extractLsb' 8 8

def lo8 (v : Half) : Byte := v.extractLsb' 0 8

/-- `be16(p, q)`: high byte `p`, low byte `q`. -/
def be16 (p q : Byte) : Half := p ++ q

/-- Byte lane `i` of a bus word (R65). -/
def lane (v : Word) (i : Nat) : Byte := v.extractLsb' (8 * i) 8

/-- The bus word of four buffer bytes, the first in the least significant lane (R65). -/
def packLanes (b0 b1 b2 b3 : Byte) : Word := b3 ++ b2 ++ b1 ++ b0

/-! What a register keeps of a written word. -/

/-- SLAVE.ADDR, CRC_DATA.BYTE: bits 7:0 (R27, R32). -/
def byteField (v : Word) : Byte := v.extractLsb' 0 8

/-- ARG0.A, ARG1.V, CRC.ACC, WFIFO.VAL: bits 15:0 (R28, R29, R31, R180). -/
def halfField (v : Word) : Half := v.extractLsb' 0 16

/-- RX_LEN.LEN: `min(v, 256)` of the 32-bit unsigned value (R30). -/
def rxLenField (v : Word) : BitVec 9 := BitVec.ofNat 9 (min v.toNat Config.rxCap)

/-! The CRC (R150, R151). -/

/-- One of the eight iterations of R150. -/
def crcShift (c : Half) : Half :=
  if c.getLsbD 0 then (c >>> 1) ^^^ 0xA001#16 else c >>> 1

/-- `crc_step(c, x)` (R150). -/
def crcStep (c : Half) (x : Byte) : Half := Nat.repeat crcShift 8 (c ^^^ x.setWidth 16)

/-- `crc16(s)` (R151). -/
def crc16 (s : List Byte) : Half := s.foldl crcStep 0xFFFF#16

/-! Request frames without their CRC (R100 to R102), and the CRC appended low byte first (R67, R170). -/

/-- The Modbus function codes (R92). -/
abbrev fcReadHolding : Byte := 0x03
abbrev fcWriteSingle : Byte := 0x06
abbrev fcWriteMultiple : Byte := 0x10

/-- A u16 on the wire, high byte first (R67). -/
def wireHalf (v : Half) : List Byte := [hi8 v, lo8 v]

/-- Bytes 0 to 5 of a 0x03 or 0x06 request: address, function code, two u16 fields (R100, R101). -/
def shortRequest (s f : Byte) (a v : Half) : List Byte := [s, f] ++ wireHalf a ++ wireHalf v

/-- The bytes of a 0x10 request before its CRC (R102). -/
def multiRequest (s : Byte) (a n : Half) (q : List Half) : List Byte :=
  shortRequest s fcWriteMultiple a n ++ [lo8 (2 * n)] ++ q.flatMap wireHalf

/-- The body followed by its CRC, low byte first (R170). -/
def appendCrc (body : List Byte) : List Byte := body ++ [lo8 (crc16 body), hi8 (crc16 body)]

end Sys2Proof.Machine
end

