-- ==== Sys2Proof/Machine/Ops.lean ====
section
/-! DEFINITION. The named operations over the buffers and registers: buffer bytes by window offset (10_state.md R37 to
R39, 20_memory.md R65), acceptance and completion (40_command_interface.md R123, R128), the tails of BUILD
(42_frame_builder.md R170, R178), the two resets (70_reset_and_hazards.md R270, R271) and what the next step takes up
(40_command_interface.md R126). The core has no trap (60_exceptions.md R243): `complete` is where an error is recorded. -/

namespace Sys2Proof.Machine

/-! Buffer bytes: a list of (offset, byte) with strictly rising offsets. -/

/-- What an offset that nothing has written since the last reset holds: no value (R44; log entry 4). -/
def Memory.unlisted : Option Byte := none

/-- The byte written at `a`, if any. -/
def Memory.find : List Host.Cell → Nat → Option Byte
  | [], _ => Memory.unlisted
  | (b, x) :: m, a => if b = a then some x else Memory.find m a

/-- Writes one byte, keeping the offsets rising. -/
def Memory.insert : List Host.Cell → Nat → Byte → List Host.Cell
  | [], a, x => [(a, x)]
  | (b, y) :: m, a, x =>
    if a < b then (a, x) :: (b, y) :: m
    else if a = b then (a, x) :: m
    else (b, y) :: Memory.insert m a x

/-- Writes bytes at consecutive offsets. -/
def Memory.writeBytes : List Host.Cell → Nat → List Byte → List Host.Cell
  | m, _, [] => m
  | m, a, x :: xs => Memory.writeBytes (Memory.insert m a x) (a + 1) xs

/-- Writes u16 values at every fourth offset, the entries of RDATA (R39): low byte in lane 0, high byte in lane 1. -/
def Memory.writeHalves : List Host.Cell → Nat → List Half → List Host.Cell
  | m, _, [] => m
  | m, a, v :: vs =>
    Memory.writeHalves (Memory.insert (Memory.insert m a (lo8 v)) (a + 1) (hi8 v)) (a + 4) vs

/-- The canonical form: offsets strictly rising. No entry can equal what an unlisted offset holds, since that is no
value at all. -/
abbrev Memory.wf (m : List Host.Cell) : Prop := m.Pairwise (fun c d => c.1 < d.1)

/-- The byte at a window offset of the buffers: the one written, or a free value (R44, 93 U2). -/
def State.byteAt (s : State) (a : Nat) : Byte :=
  match Memory.find s.mem a with
  | some x => x
  | none => Config.freeByte s.epoch a

/-- `TXBUF[i]` (R37). -/
def State.txByte (s : State) (i : Nat) : Byte := s.byteAt (Reg.txbuf + i)

/-- `RXBUF[i]` (R38). -/
def State.rxByte (s : State) (i : Nat) : Byte := s.byteAt (Reg.rxbuf + i)

/-- `RDATA[i]` (R39). -/
def State.rdata (s : State) (i : Nat) : Half :=
  be16 (s.byteAt (Reg.rdata + 4 * i + 1)) (s.byteAt (Reg.rdata + 4 * i))

/-- `RXBUF[0 .. n)`. -/
def State.rxPrefix (s : State) (n : Nat) : List Byte := (List.range n).map s.rxByte

/-- `RXBUF[0 .. RX_LEN.LEN)`: the received byte sequence (R38). -/
def State.received (s : State) : List Byte := s.rxPrefix s.rxLen.toNat

/-- `TXBUF[0 .. TX_LEN.LEN)`: the frame the Host sends (R171). -/
def State.frame (s : State) : List Byte := (List.range s.txLen.toNat).map s.txByte

/-- The bus word of the four buffer bytes from offset `a` (R65). -/
def State.wordAt (s : State) (a : Nat) : Word :=
  packLanes (s.byteAt a) (s.byteAt (a + 1)) (s.byteAt (a + 2)) (s.byteAt (a + 3))

/-- Stores the four lanes of `v` from offset `a` (R65). -/
def State.storeWord (s : State) (a : Nat) (v : Word) : State :=
  { s with mem := Memory.writeBytes s.mem a [lane v 0, lane v 1, lane v 2, lane v 3] }

/-! The life of a command. -/

/-- `accept(w)` (R123). -/
def State.accept (s : State) (w : Word) : State :=
  { s with pend := some w, busy := true, done := false }

/-- `complete(code, exc, r0, r1)` (R128). -/
def State.complete (s : State) (code : ErrorCode) (exc : Byte) (r0 r1 : Half) : State :=
  { s with errCode := code, errExc := exc, res0 := r0, res1 := r1, busy := false, done := true, pend := none }

/-- `emit(body)` (R170): TXBUF, TX_LEN and the completion. -/
def State.emit (s : State) (body : List Byte) : State :=
  { s with
    mem := Memory.writeBytes s.mem Reg.txbuf (appendCrc body)
    txLen := BitVec.ofNat 9 (appendCrc body).length }.complete .none 0 (crc16 body) 0

/-- `build_fail()` (R178). -/
def State.buildFail (s : State) : State :=
  { s with txLen := 0 }.complete .encodingError 0 0 0

/-- Empties Q and clears WOVF (R40). -/
def State.clearFifo (s : State) : State := { s with fifo := [], wovf := false }

/-- Either reset (R270, R271): every piece of the core's state takes its reset value and the buffers' contents become
fresh free values. The model's own fields that belong to the outside world stay (log entry 18). -/
def State.resetCore (s : State) : State :=
  { State.reset with epoch := s.epoch + 1, draws := s.draws, readData := s.readData, agenda := s.agenda }

/-! What the next step takes up. -/

/-- The command the Engine can take: it is enabled exactly when STATUS.BUSY = 1 (R126; log entry 3). -/
def State.engineCommand (s : State) : Option Word := if s.busy then s.pend else none

/-- What one step does: an instruction's cycle, a hardware reset, or nothing. -/
inductive Activity where
  | run (c : Cycle)
  | reset
  | idle
  deriving DecidableEq, Repr

/-- The Engine's activity: its pending command, or nothing when it is not enabled. -/
def State.engineActivity (s : State) : Activity :=
  match s.engineCommand with
  | some w => .run (.command w)
  | none => .idle

/-- The next activity: the agenda's first event; with no event left, the Engine if it is enabled (R71, R127; log
entries 1 and 2). -/
def State.nextActivity (s : State) : Activity :=
  match s.agenda with
  | [] => s.engineActivity
  | .access a :: _ => .run (.access a)
  | .engine :: _ => s.engineActivity
  | .hardwareReset :: _ => .reset

/-- The state with the first event of the agenda taken off. -/
def State.takeEvent (s : State) : State := { s with agenda := s.agenda.tail }

/-- The state in which the very next step runs the opcode table's word (log entries 12 and 13). -/
def State.placeWord (s : State) (nbits w : Nat) : State :=
  match tableCycle nbits w with
  | .command c => { s.accept c with agenda := .engine :: s.agenda }
  | .access a => { s with agenda := .access a :: s.agenda }

end Sys2Proof.Machine
end

