-- ==== Sys2Proof/Machine/Flags.lean ====
section
/-! DEFINITION. The status word and its flags (10_state.md R25, R43), the busy-write rule (40_command_interface.md
R124), the interrupt line (60_exceptions.md R250) and the words a host read returns (40_command_interface.md R125,
R130). -/

namespace Sys2Proof.Machine

/-- The number of an error code (R240). -/
def ErrorCode.bits : ErrorCode → BitVec 4
  | .none => 0
  | .shortFrame => 1
  | .addressMismatch => 2
  | .deviceException => 3
  | .functionMismatch => 4
  | .crcMismatch => 5
  | .byteCountMismatch => 6
  | .encodingError => 7
  | .illegalCommand => 8

/-- STATUS.ERR reads as `ERR.CODE != 0` (R25). -/
def State.errFlag (s : State) : Bool := s.errCode.bits != 0

/-- STATUS.WCNT = len(Q) (R25, R40). -/
def State.wcnt (s : State) : BitVec 8 := BitVec.ofNat 8 s.fifo.length

/-- `irq = CTRL.IRQ_EN AND STATUS.DONE` (R250). -/
def State.irq (s : State) : Bool := s.irqEn && s.done

/-- The electrical level of a line of the given polarity while the signal is `asserted` (R252). -/
def lineLevel : Polarity → Bool → Bool
  | .activeHigh, asserted => asserted
  | .activeLow, asserted => !asserted

/-- Whether a controller sees a request, from the signal before and after: by its level, or by its asserting edge
(R252). -/
def requestSeen : Trigger → Bool → Bool → Bool
  | .level, _, now => now
  | .edge, before, now => !before && now

/-- `irq` is routed to this controller under this number (R252). -/
def irqRoutedTo (controller number : Nat) : Bool :=
  controller == Config.irqLine.controller && number == Config.irqLine.number

/-- The electrical level the core drives on the input `number` of a controller, if `irq` is routed there (R252). -/
def State.irqLevelAt (s : State) (controller number : Nat) : Option Bool :=
  if irqRoutedTo controller number then some (lineLevel Config.irqLine.polarity s.irq) else none

/-- Whether the input `number` of a controller has a request from the core when the state goes from `s` to `t`: the
core is the source of one input only, the one `irq` is routed to (R252). -/
def irqRequestAt (s t : State) (controller number : Nat) : Bool :=
  irqRoutedTo controller number && requestSeen Config.irqLine.trigger s.irq t.irq

/-- The STATUS word: BUSY 0, DONE 1, ERR 2, IGN 3, WOVF 4, WCNT 15:8, all other bits 0 (R23, R25). -/
def State.statusWord (s : State) : Word :=
  0#16 ++ s.wcnt ++ 0#3 ++ BitVec.ofBool s.wovf ++ BitVec.ofBool s.ign ++ BitVec.ofBool s.errFlag ++
    BitVec.ofBool s.done ++ BitVec.ofBool s.busy

/-- The bits of STATUS that belong to the result state: 2, 4 and 15:8 (R125). -/
def statusDrawn : Word := 0x0000FF14

/-- The CTRL word: SRST reads 0, IRQ_EN is bit 1 (R24). -/
def State.ctrlWord (s : State) : Word := 0#30 ++ BitVec.ofBool s.irqEn ++ 0#1

/-- The ERR word: CODE 3:0, EXC 15:8 (R33). -/
def State.errWord (s : State) : Word := 0#16 ++ s.errExc ++ 0#4 ++ s.errCode.bits

/-- The busy-write rule: while BUSY = 1 the write is dropped and IGN set, else it has its effect `s'` (R124). -/
def State.unlessBusy (s s' : State) : State := if s.busy then { s with ign := true } else s'

/-- The W1C bits of STATUS: the flag after a write whose bit for it is `b` (R132). -/
def clearIf (b flag : Bool) : Bool := flag && !b

/-! Reads (R125, R130). -/

/-- The offset lies in TXBUF, 0x100 to 0x1FF. -/
def inTxbuf (off : Offset) : Bool := off.extractLsb' 8 4 == 0x1#4

/-- The offset lies in RDATA, 0x300 to 0x3F3 (R23, R130; log entry 19). -/
def inRdata (off : Offset) : Bool := Reg.rdata ≤ off.toNat && off.toNat ≤ Reg.rdataEnd

/-- The whole word at the offset is result state: ERR, RESULT0, RESULT1, TX_LEN, TXBUF, RDATA (R42, R125). -/
def isResultState (off : Offset) : Bool :=
  off == Reg.txLen || off == Reg.err || off == Reg.result0 || off == Reg.result1 || inTxbuf off || inRdata off

/-- A read of the offset takes a draw while the core is busy (R125). -/
def drawsWhileBusy (off : Offset) : Bool := off == Reg.status || isResultState off

/-- The value held at an aligned offset (R130): the register's fields at their places, the buffer's bytes, 0 at a
write-only register and at a reserved offset. -/
def State.exactWord (s : State) (off : Offset) : Word :=
  if off = Reg.ctrl then s.ctrlWord
  else if off = Reg.status then s.statusWord
  else if off = Reg.slave then s.slave.setWidth 32
  else if off = Reg.arg0 then s.arg0.setWidth 32
  else if off = Reg.arg1 then s.arg1.setWidth 32
  else if off = Reg.txLen then s.txLen.setWidth 32
  else if off = Reg.rxLen then s.rxLen.setWidth 32
  else if off = Reg.crc then s.crcAcc.setWidth 32
  else if off = Reg.err then s.errWord
  else if off = Reg.result0 then s.res0.setWidth 32
  else if off = Reg.result1 then s.res1.setWidth 32
  else if inTxbuf off || inRxbuf off then s.wordAt off.toNat
  else if inRdata off then (s.rdata ((off.toNat - Reg.rdata) / 4)).setWidth 32
  else 0

/-- The value a read returns (R125, R130): while busy a draw for the result state, of which STATUS takes the bits
that belong to it; else the value held. -/
def State.readWord (s : State) (off : Offset) : Word :=
  if s.busy && isResultState off then Config.freeWord s.draws
  else if s.busy && off == Reg.status then
    (s.statusWord &&& ~~~statusDrawn) ||| (Config.freeWord s.draws &&& statusDrawn)
  else s.exactWord off

end Sys2Proof.Machine
end

