-- ==== Sys2Proof/Machine/Builder.lean ====
section
/-! DEFINITION. The frame builder's commands and the write-value FIFO (42_frame_builder.md). -/

namespace Sys2Proof.Machine

/-- BUILD.RHR (R172). -/
def execBuildRhr (s : State) : Host.Outcome State Fault Refusal :=
  .next (if s.arg1 = 0 then s.buildFail else s.emit (shortRequest s.slave fcReadHolding s.arg0 s.arg1))

/-- BUILD.WSR (R174). -/
def execBuildWsr (s : State) : Host.Outcome State Fault Refusal :=
  .next (s.emit (shortRequest s.slave fcWriteSingle s.arg0 s.arg1))

/-- The condition of BUILD.WMR (R176, R177). -/
def wmrOk (s : State) : Bool := !s.wovf && s.arg1.toNat == s.fifo.length && 1 ≤ s.arg1.toNat

/-- BUILD.WMR (R176): Q is emptied and WOVF cleared in every case. -/
def execBuildWmr (s : State) : Host.Outcome State Fault Refusal :=
  .next (if wmrOk s then s.clearFifo.emit (multiRequest s.slave s.arg0 s.arg1 s.fifo) else s.clearFifo.buildFail)

/-- WFIFO.CLEAR (R181). -/
def execWfifoClear (s : State) : Host.Outcome State Fault Refusal :=
  .next (s.clearFifo.complete .none 0 0 0)

/-- The push of a value (R180): appended while Q is not full, else dropped with WOVF set. -/
def State.pushValue (s : State) (x : Half) : State :=
  if s.fifo.length < Config.wfifoDepth then { s with fifo := s.fifo ++ [x] } else { s with wovf := true }

/-- `push v` (R180). -/
def execPush (v : Word) (s : State) : Host.Outcome State Fault Refusal :=
  .next (s.unlessBusy (s.pushValue (halfField v)))

end Sys2Proof.Machine
end

