-- ==== Sys2Proof/Machine/CrcCodec.lean ====
section
/-! DEFINITION. The CRC-16 codec's commands and streaming port (41_crc16.md). -/

namespace Sys2Proof.Machine

/-- CRC.COMPUTE (R154). -/
def execCrcCompute (s : State) : Host.Outcome State Fault Refusal :=
  .next (s.complete .none 0 (crc16 s.received) 0)

/-- CRC.CHECK (R155): RESULT1 bit 0 is the match with ARG1.V. -/
def execCrcCheck (s : State) : Host.Outcome State Fault Refusal :=
  .next (s.complete .none 0 (crc16 s.received) (if crc16 s.received = s.arg1 then 1 else 0))

/-- `wr CRC, v` (R152): takes effect while busy. -/
def execWrCrc (v : Word) (s : State) : Host.Outcome State Fault Refusal :=
  .next { s with crcAcc := halfField v }

/-- `feed b` (R153): takes effect while busy. -/
def execFeed (v : Word) (s : State) : Host.Outcome State Fault Refusal :=
  .next { s with crcAcc := crcStep s.crcAcc (byteField v) }

end Sys2Proof.Machine
end

