-- ==== Sys2Proof/Machine/HostInterface.lean ====
section
/-! DEFINITION. The Host's register operations (40_command_interface.md R121 to R133), the illegal command (R129), the
BusError access (60_exceptions.md R245), and the accesses the assembler's lines stand for (30_encoding.md R98). -/

namespace Sys2Proof.Machine

/-- An illegal command word completes with ILLEGAL_COMMAND and no other effect (R129). -/
def execIllegalCommand (_w : Word) (s : State) : Host.Outcome State Fault Refusal :=
  .next (s.complete .illegalCommand 0 0 0)

/-- `wr CTRL, v` (R133): SRST in bit 0, IRQ_EN in bit 1; takes effect while busy. -/
def execWrCtrl (v : Word) (s : State) : Host.Outcome State Fault Refusal :=
  .next (if v.getLsbD 0 then s.resetCore else { s with irqEn := v.getLsbD 1 })

/-- `wr STATUS, v` (R132): DONE in bit 1 and IGN in bit 3 are cleared by a 1; takes effect while busy. -/
def execWrStatus (v : Word) (s : State) : Host.Outcome State Fault Refusal :=
  .next { s with done := clearIf (v.getLsbD 1) s.done, ign := clearIf (v.getLsbD 3) s.ign }

/-- `wr CMD, w` (R122). -/
def execWrCmd (w : Word) (s : State) : Host.Outcome State Fault Refusal :=
  .next (s.unlessBusy (s.accept w))

/-- `wr SLAVE, v` (R131). -/
def execWrSlave (v : Word) (s : State) : Host.Outcome State Fault Refusal :=
  .next (s.unlessBusy { s with slave := byteField v })

/-- `wr ARG0, v` (R131). -/
def execWrArg0 (v : Word) (s : State) : Host.Outcome State Fault Refusal :=
  .next (s.unlessBusy { s with arg0 := halfField v })

/-- `wr ARG1, v` (R131). -/
def execWrArg1 (v : Word) (s : State) : Host.Outcome State Fault Refusal :=
  .next (s.unlessBusy { s with arg1 := halfField v })

/-- `wr RX_LEN, v` (R131). -/
def execWrRxLen (v : Word) (s : State) : Host.Outcome State Fault Refusal :=
  .next (s.unlessBusy { s with rxLen := rxLenField v })

/-- `wr RXBUF+k, v` (R131). -/
def execWrRxbuf (k : Byte) (v : Word) (s : State) : Host.Outcome State Fault Refusal :=
  .next (s.unlessBusy (s.storeWord (Reg.rxbuf + k.toNat) v))

/-- A write at a read-only register or a reserved offset is ignored, busy or not, and leaves IGN (R121, R124). -/
def execWrRoOrReserved (_off : Offset) (_v : Word) (s : State) : Host.Outcome State Fault Refusal :=
  .next s

/-- `rd NAME` (R130): the value goes to the Host; a read that draws takes a fresh draw (R125). -/
def execRdName (off : Offset) (s : State) : Host.Outcome State Fault Refusal :=
  .next { s with
    readData := s.readWord off
    draws := if s.busy && drawsWhileBusy off then s.draws + 1 else s.draws }

/-- An access of the wrong width or alignment: the spec makes it a fault of the Host's step that changes no state of
the core (R245, 93 U4; log entry 8). -/
def execBusError (a : HostAccess) (_s : State) : Host.Outcome State Fault Refusal :=
  .fault (.busError a)

/-! Pseudo-instructions as lists of host accesses (R98). -/

def Asm.command (w : Word) : List HostAccess := [wr Reg.cmd w]
def Asm.push (v : Word) : List HostAccess := [wr Reg.wfifo v]
def Asm.feed (b : Word) : List HostAccess := [wr Reg.crcData b]
def Asm.crcinit : List HostAccess := [wr Reg.crc 0xFFFF]
def Asm.srst : List HostAccess := [wr Reg.ctrl 0x00000001]
def Asm.ack : List HostAccess := [wr Reg.status 0x0000000A]

/-- The offset of the line `wr RXBUF+4j`, 0x200 + 4*j. DESIGN CHOICE (log entry 20): R98 bounds no `j`, and from j = 64
on the offset goes on into RDATA's window and the reserved offsets, where a write is ignored (R61). -/
def rxWordOffset (j : Nat) : Offset := BitVec.ofNat 12 (Reg.rxbuf + 4 * j)

/-- The writes of the bytes of a frame to RXBUF from word `j` on, missing lanes 0. -/
def Asm.rxWords : Nat → List Byte → List HostAccess
  | _, [] => []
  | j, [b0] => [wr (rxWordOffset j) (packLanes b0 0 0 0)]
  | j, [b0, b1] => [wr (rxWordOffset j) (packLanes b0 b1 0 0)]
  | j, [b0, b1, b2] => [wr (rxWordOffset j) (packLanes b0 b1 b2 0)]
  | j, b0 :: b1 :: b2 :: b3 :: bs => wr (rxWordOffset j) (packLanes b0 b1 b2 b3) :: Asm.rxWords (j + 1) bs

/-- `rxbytes b0 b1 ...`: the words, then RX_LEN. DESIGN CHOICE (log entry 20): R98 bounds no length, and the words that
would lie past the window's last offset are no accesses to the core. -/
def Asm.rxbytes (bs : List Byte) : List HostAccess :=
  Asm.rxWords 0 (bs.take (Config.window - Reg.rxbuf)) ++ [wr Reg.rxLen (BitVec.ofNat 32 bs.length)]

end Sys2Proof.Machine
end

