-- ==== Sys2Proof/Machine/Parser.lean ====
section
/-! DEFINITION. The frame parser (43_frame_parser.md): one validation procedure, three commands. -/

namespace Sys2Proof.Machine

/-- Step 1, the length check (R202 to R206); the arithmetic is on unbounded integers. -/
def lengthOk (f : Byte) (b : Nat → Byte) (len n : Nat) : Bool :=
  if 2 ≤ len ∧ b 1 = f ||| 0x80 then len = 5
  else if f = fcReadHolding then 5 + 2 * n ≤ len
  else len = 8

/-- The validation order of R201, first failure wins: length, address, exception, function, CRC, byte count. The
answer `none` is success. `b` is RXBUF, `len` is RX_LEN.LEN, `n` is ARG1.V and `slave` is SLAVE.ADDR (R200). -/
def parseCode (f : Byte) (b : Nat → Byte) (len n : Nat) (slave : Byte) : ErrorCode :=
  if !lengthOk f b len n then .shortFrame
  else if b 0 ≠ slave then .addressMismatch
  else if b 1 ^^^ 0x80 = f then .deviceException
  else if b 1 ≠ f then .functionMismatch
  else if be16 (b (len - 1)) (b (len - 2)) ≠ crc16 ((List.range (len - 2)).map b) then .crcMismatch
  else if f = fcReadHolding ∧ (b 2).toNat ≠ 2 * n then .byteCountMismatch
  else .none

/-- `parse(F)` in a state (R201): on success `success`, else the completion of R208 or R213. -/
def State.parse (s : State) (f : Byte) (success : State) : State :=
  match parseCode f s.rxByte s.rxLen.toNat s.arg1.toNat s.slave with
  | .none => success
  | .deviceException => s.complete .deviceException (s.rxByte 2) 0 0
  | .shortFrame => s.complete .shortFrame 0 0 0
  | .addressMismatch => s.complete .addressMismatch 0 0 0
  | .functionMismatch => s.complete .functionMismatch 0 0 0
  | .crcMismatch => s.complete .crcMismatch 0 0 0
  | .byteCountMismatch => s.complete .byteCountMismatch 0 0 0
  | .encodingError => s.complete .encodingError 0 0 0
  | .illegalCommand => s.complete .illegalCommand 0 0 0

/-- The register values of a 0x03 response: `be16(b[3 + 2*i], b[4 + 2*i])` for i < N (R216). -/
def State.responseValues (s : State) (n : Nat) : List Half :=
  (List.range n).map fun i => be16 (s.rxByte (3 + 2 * i)) (s.rxByte (4 + 2 * i))

/-- `success(0x03)` (R216). -/
def State.readSuccess (s : State) : State :=
  { s with mem := Memory.writeHalves s.mem Reg.rdata (s.responseValues s.arg1.toNat) }.complete .none 0 s.arg1 0

/-- `success(0x06)` and `success(0x10)` (R218, R219): the echo, not compared. -/
def State.echoSuccess (s : State) : State :=
  s.complete .none 0 (be16 (s.rxByte 2) (s.rxByte 3)) (be16 (s.rxByte 4) (s.rxByte 5))

/-- PARSE.RHR (R215). -/
def execParseRhr (s : State) : Host.Outcome State Fault Refusal := .next (s.parse fcReadHolding s.readSuccess)

/-- PARSE.WSR (R218). -/
def execParseWsr (s : State) : Host.Outcome State Fault Refusal := .next (s.parse fcWriteSingle s.echoSuccess)

/-- PARSE.WMR (R219). -/
def execParseWmr (s : State) : Host.Outcome State Fault Refusal := .next (s.parse fcWriteMultiple s.echoSuccess)

end Sys2Proof.Machine
end

