-- ==== Sys2Proof/Machine/Dispatch.lean ====
section
/-! DEFINITION. One arm per instruction: the Engine's dispatch (40_command_interface.md R126) and the Host's (R121). -/

namespace Sys2Proof.Machine

def exec (i : Instr) (s : State) : Host.Outcome State Fault Refusal :=
  match i with
  | .crcCompute => Sys2Proof.Machine.execCrcCompute s
  | .crcCheck => Sys2Proof.Machine.execCrcCheck s
  | .buildRhr => Sys2Proof.Machine.execBuildRhr s
  | .buildWsr => Sys2Proof.Machine.execBuildWsr s
  | .buildWmr => Sys2Proof.Machine.execBuildWmr s
  | .parseRhr => Sys2Proof.Machine.execParseRhr s
  | .parseWsr => Sys2Proof.Machine.execParseWsr s
  | .parseWmr => Sys2Proof.Machine.execParseWmr s
  | .wfifoClear => Sys2Proof.Machine.execWfifoClear s
  | .illegalCommand w => Sys2Proof.Machine.execIllegalCommand w s
  | .wrCtrl v => Sys2Proof.Machine.execWrCtrl v s
  | .wrStatus v => Sys2Proof.Machine.execWrStatus v s
  | .wrCmd w => Sys2Proof.Machine.execWrCmd w s
  | .wrSlave v => Sys2Proof.Machine.execWrSlave v s
  | .wrArg0 v => Sys2Proof.Machine.execWrArg0 v s
  | .wrArg1 v => Sys2Proof.Machine.execWrArg1 v s
  | .wrRxLen v => Sys2Proof.Machine.execWrRxLen v s
  | .wrCrc v => Sys2Proof.Machine.execWrCrc v s
  | .feed v => Sys2Proof.Machine.execFeed v s
  | .push v => Sys2Proof.Machine.execPush v s
  | .wrRxbuf k v => Sys2Proof.Machine.execWrRxbuf k v s
  | .wrRoOrReserved off v => Sys2Proof.Machine.execWrRoOrReserved off v s
  | .rdName off => Sys2Proof.Machine.execRdName off s
  | .busError a => Sys2Proof.Machine.execBusError a s

end Sys2Proof.Machine
end

