-- ==== Sys2Proof/Safety.lean ====
section
/-! DEFINITION. What counts as a state of a run and as a safe run: the invariant every step keeps, the values a reset
leaves, the host accesses that cannot fault. -/

namespace Sys2Proof.Machine

/-- The offsets at which the buffers hold bytes: TXBUF, RXBUF and the two low lanes of each of the 125 RDATA entries
(10_state.md R23, R37 to R39; log entry 19: the Host reads those up to 0x3F3). -/
def bufferOffset (a : Nat) : Bool :=
  (Reg.txbuf ≤ a && a < Reg.txbuf + Config.txCap) ||
  (Reg.rxbuf ≤ a && a < Reg.rxbuf + Config.rxCap) ||
  (Reg.rdata ≤ a && a < Reg.rdata + 4 * Config.rdataCap && a % 4 < 2)

/-- The invariant of the machine. -/
structure State.Inv (s : State) : Prop where
  /-- The buffers' bytes are listed once each, by rising offset. -/
  memSorted : Memory.wf s.mem
  /-- Nothing is listed outside the buffers (R171, R217). -/
  memInBuffers : ∀ c ∈ s.mem, bufferOffset c.1 = true
  /-- Q holds at most WFIFO_DEPTH values (R40). -/
  fifoBound : s.fifo.length ≤ Config.wfifoDepth
  /-- WOVF is set only when a push found Q full, and Q is not emptied without clearing it (R40). -/
  overflowFull : s.wovf = true → s.fifo.length = Config.wfifoDepth
  /-- RX_LEN.LEN is at most RX_CAP (R30). -/
  rxLenBound : s.rxLen.toNat ≤ Config.rxCap
  /-- TX_LEN.LEN is from 0 to 255 (R36). -/
  txLenBound : s.txLen.toNat ≤ 255
  /-- A command is pending exactly while BUSY = 1 (R41, R123, R128). -/
  pendingWhileBusy : s.pend.isSome = s.busy
  /-- DONE is 0 while BUSY = 1 (R123, R125). -/
  notDoneWhileBusy : s.busy = true → s.done = false
  /-- ERR.EXC is 0 unless the code is DEVICE_EXCEPTION (R33). -/
  excOnlyOnException : s.errCode ≠ .deviceException → s.errExc = 0
  /-- RESULT0 and RESULT1 are 0 after a failure (R34, R35). -/
  noResultOnFailure : s.errCode ≠ .none → s.res0 = 0 ∧ s.res1 = 0

/-- The values of R44 for every register, flag and queue of the core. -/
structure State.AtResetValues (s : State) : Prop where
  irqEn : s.irqEn = false
  busy : s.busy = false
  done : s.done = false
  ign : s.ign = false
  wovf : s.wovf = false
  fifo : s.fifo = []
  pend : s.pend = none
  slave : s.slave = 0x00
  arg0 : s.arg0 = 0x0000
  arg1 : s.arg1 = 0x0000
  txLen : s.txLen = 0
  rxLen : s.rxLen = 0
  crcAcc : s.crcAcc = 0xFFFF
  errCode : s.errCode = .none
  errExc : s.errExc = 0
  res0 : s.res0 = 0
  res1 : s.res1 = 0

/-- Every access the agenda still holds is aligned and 32 bits wide (R64). -/
def State.LegalAgenda (s : State) : Prop := ∀ a, Event.access a ∈ s.agenda → a.legal = true

/-- A run that meets no fault and no refusal, however long. -/
def State.SafeRun (s : State) : Prop := ∀ k, ∃ t, run k s = .next t

/-- Two states agree on the operands an Engine step reads (R135), RXBUF as far as RX_LEN. -/
structure SameOperands (s t : State) : Prop where
  slave : t.slave = s.slave
  arg0 : t.arg0 = s.arg0
  arg1 : t.arg1 = s.arg1
  rxLen : t.rxLen = s.rxLen
  received : ∀ i, i < s.rxLen.toNat → t.rxByte i = s.rxByte i
  fifo : t.fifo = s.fifo
  wovf : t.wovf = s.wovf

end Sys2Proof.Machine
end

