-- ==== Sys2Proof/Certificates/Slice0/Obligations.lean ====
section
/-! DEFINITION. The statements for the provers, from the numbered rules of spec/. OBLIGATIONS.json lists them. -/

open Sys2Proof Sys2Proof.Machine

/-! ## Encoding -/

/-- Decoding what an instruction is encoded as gives it back, every operand at every value. -/
def Obligations.DecodeOfEncodeIsTheInstruction : Prop :=
  ∀ i : Instr, i.wellFormed = true → decode (encode i) = i

/-- Every cycle decodes to a well-formed instruction that encodes as that very cycle. -/
def Obligations.EncodeOfDecodeIsTheCycle : Prop :=
  ∀ c : Cycle, (decode c).wellFormed = true ∧ encode (decode c) = c

/-- R93: the legal words are the nine of the map, and `legal` is as the fields say. -/
def Obligations.ExactlyNineCommandWordsAreLegal : Prop :=
  ∀ w : Word,
    (legalCommand w = true ↔
      w.extractLsb' 4 4 = 0 ∧ w.extractLsb' 16 16 = 0 ∧
        ((w.extractLsb' 0 4 ∈ [0x1#4, 0x2#4, 0x5#4] ∧ w.extractLsb' 8 8 = 0x00#8) ∨
         (w.extractLsb' 0 4 ∈ [0x3#4, 0x4#4] ∧ w.extractLsb' 8 8 ∈ [0x03#8, 0x06#8, 0x10#8]))) ∧
    (legalCommand w = true ↔
      w ∈ [0x00000001#32, 0x00000002#32, 0x00000303#32, 0x00000603#32, 0x00001003#32, 0x00000304#32,
        0x00000604#32, 0x00001004#32, 0x00000005#32])

/-- R95, R129: exactly the words that are not legal decode to the illegal command, and it completes with code 8 and
changes nothing else. -/
def Obligations.IllegalWordsCompleteWithCodeEight : Prop :=
  ∀ (w : Word) (s : State), (legalCommand w = false ↔ decodeCommand w = .illegalCommand w) ∧
    exec (.illegalCommand w) s = .next { s with
      errCode := .illegalCommand, errExc := 0, res0 := 0, res1 := 0, busy := false, done := true, pend := none }

/-- The words of the command map and some accesses, written out, decode to what they stand for. -/
def Obligations.WrittenOutWordsDecode : Prop :=
  decode (.command 0x00000001#32) = .crcCompute ∧ decode (.command 0x00000002#32) = .crcCheck ∧
  decode (.command 0x00000303#32) = .buildRhr ∧ decode (.command 0x00000603#32) = .buildWsr ∧
  decode (.command 0x00001003#32) = .buildWmr ∧ decode (.command 0x00000304#32) = .parseRhr ∧
  decode (.command 0x00000604#32) = .parseWsr ∧ decode (.command 0x00001004#32) = .parseWmr ∧
  decode (.command 0x00000005#32) = .wfifoClear ∧
  decode (.command 0x00010303#32) = .illegalCommand 0x00010303#32 ∧
  decode (.access (.write 0x000#12 .w32 2#32)) = .wrCtrl 2#32 ∧
  decode (.access (.write 0x2FC#12 .w32 7#32)) = .wrRxbuf 0xFC#8 7#32 ∧
  decode (.access (.write 0x018#12 .w32 7#32)) = .wrRoOrReserved 0x018#12 7#32 ∧
  decode (.access (.read 0x02C#12 .w32)) = .rdName 0x02C#12

/-! ## Steps -/

/-- A step runs the instruction that the activity at hand decodes to: the access at the head of the agenda; the
pending command when the agenda lets the Engine step or holds nothing; a reset; nothing. The model's choices in it: the
agenda is log entry 1, the step with an empty agenda log entry 2, the skipped Engine event log entry 3, and that a reset
keeps the agenda's rest, the draws and the read data log entry 18. -/
def Obligations.StepRunsTheDecodedInstruction : Prop :=
  ∀ (s : State) (i : Instr) (rest : List Event),
    (∀ a, s.agenda = .access a :: rest → decode (.access a) = i → step s = exec i { s with agenda := rest }) ∧
    (∀ w, s.busy = true → s.pend = some w → decode (.command w) = i →
      (s.agenda = .engine :: rest → step s = exec i { s with agenda := rest }) ∧
      (s.agenda = [] → step s = exec i s)) ∧
    (s.busy = false →
      (s.agenda = .engine :: rest → step s = .next { s with agenda := rest }) ∧
      (s.agenda = [] → step s = .next s)) ∧
    (s.agenda = .hardwareReset :: rest →
      ∃ t, step s = .next t ∧ t.AtResetValues ∧ t.agenda = rest ∧ t.draws = s.draws ∧ t.readData = s.readData)

/-- The invariant holds right after reset. -/
def Obligations.ResetMeetsTheInvariant : Prop := State.reset.Inv

/-- Every step keeps the invariant. -/
def Obligations.StepKeepsTheInvariant : Prop :=
  ∀ s t : State, s.Inv → step s = .next t → t.Inv

/-- R245, R246: an access of the wrong width or alignment, and nothing else, is a fault of the step, whatever the busy
state; no step is refused. The access stands at the head of the model's agenda (log entry 1). -/
def Obligations.StepFaultsExactlyOnBusError : Prop :=
  ∀ s : State,
    (∀ f, step s = .fault f ↔ ∃ a rest, s.agenda = .access a :: rest ∧ f = .busError a ∧
      ∃ off width, (width ≠ .w32 ∨ off.toNat % 4 ≠ 0) ∧
        (a = .read off width ∨ ∃ v, a = .write off width v)) ∧
    (∀ r, step s ≠ .refused r) ∧
    (∀ a, exec (.busError a) s = .fault (.busError a))

/-- While the Host makes only aligned 32-bit accesses, a run never stops. The agenda is log entry 1; the steps after it
is empty exist by log entry 2. -/
def Obligations.LegalAccessesRunForever : Prop :=
  ∀ s : State, s.LegalAgenda → s.SafeRun

/-- Every accepted command completes (or is aborted by a reset) within the agenda's length and one more step. It rests
on the model's choice of log entry 2, the Engine's step with an empty agenda; the agenda is log entry 1. -/
def Obligations.PendingCommandEndsWithinTheAgenda : Prop :=
  ∀ s : State, s.Inv → s.busy = true → s.LegalAgenda →
    ∃ k t, k ≤ s.agenda.length + 1 ∧ run k s = .next t ∧ t.busy = false

/-- R135: as long as the command accepted by a CMD write is pending, the operands are those of the acceptance, over
every run. -/
def Obligations.OperandsAreThoseOfTheAcceptance : Prop :=
  ∀ (s u t : State) (w : Word) (k : Nat),
    s.busy = false → exec (.wrCmd w) s = .next u →
    (∀ j, j ≤ k → ∃ v, run j u = .next v ∧ v.busy = true) → run k u = .next t →
    t.slave = s.slave ∧ t.arg0 = s.arg0 ∧ t.arg1 = s.arg1 ∧ t.rxLen = s.rxLen ∧ (∀ i, i < 256 → t.rxByte i = s.rxByte i) ∧
      t.fifo = s.fifo ∧ t.wovf = s.wovf ∧ t.pend = some w

/-- Only the Engine's completion, a soft reset or a hardware reset ends a pending command. -/
def Obligations.OnlyCompletionOrResetEndsACommand : Prop :=
  ∀ s t : State, s.busy = true → step s = .next t → t.busy = false →
    (∃ w, s.pend = some w ∧ s.nextActivity = .run (.command w)) ∨ s.nextActivity = .reset ∨
    (∃ v, v.getLsbD 0 = true ∧ s.nextActivity = .run (.access (.write 0x000#12 .w32 v)))

/-- R250, R251: what lets irq fall and what makes it rise, over every step. -/
def Obligations.IrqFallsAndRisesOnlyByItsEvents : Prop :=
  ∀ s t : State, step s = .next t →
    (s.irq = true → (t.irq = false ↔
      (∃ v, v.getLsbD 1 = true ∧ s.nextActivity = .run (.access (.write 0x004#12 .w32 v))) ∨
      (∃ w, s.busy = false ∧ s.nextActivity = .run (.access (.write 0x008#12 .w32 w))) ∨
      (∃ v, (v.getLsbD 1 = false ∨ v.getLsbD 0 = true) ∧ s.nextActivity = .run (.access (.write 0x000#12 .w32 v))) ∨
      s.nextActivity = .reset)) ∧
    (s.irq = false → (t.irq = true ↔
      (∃ w, s.irqEn = true ∧ s.nextActivity = .run (.command w)) ∨
      (∃ v, v.getLsbD 0 = false ∧ v.getLsbD 1 = true ∧ s.done = true ∧
        s.nextActivity = .run (.access (.write 0x000#12 .w32 v)))))

/-- R37 to R39: which instruction may change which byte of the buffers. -/
def Obligations.BufferBytesHaveTheirWritersOnly : Prop :=
  ∀ (s t : State) (i : Instr) (a : Nat), s.Inv → i.wellFormed = true → exec i s = .next t → t.byteAt a ≠ s.byteAt a →
    (∃ v, v.getLsbD 0 = true ∧ i = .wrCtrl v) ∨
    ((i = .buildRhr ∨ i = .buildWsr ∨ i = .buildWmr) ∧ t.errCode = .none ∧ 0x100 ≤ a ∧ a < 0x100 + t.txLen.toNat) ∨
    (∃ k v, i = .wrRxbuf k v ∧ s.busy = false ∧ 0x200 + k.toNat ≤ a ∧ a < 0x200 + k.toNat + 4) ∨
    (i = .parseRhr ∧ t.errCode = .none ∧ 0x300 ≤ a ∧ a < 0x300 + 4 * s.arg1.toNat ∧ s.arg1.toNat ≤ 125)

/-- R40: a push, BUILD.WMR, WFIFO.CLEAR and a reset are all that changes Q and WOVF, over every step. -/
def Obligations.FifoChangesOnlyByItsOperations : Prop :=
  ∀ s t : State, step s = .next t → (t.fifo ≠ s.fifo ∨ t.wovf ≠ s.wovf) →
    (∃ v, s.busy = false ∧ s.nextActivity = .run (.access (.write 0x028#12 .w32 v)) ∧
      ((s.fifo.length < 123 ∧ t.fifo = s.fifo ++ [v.extractLsb' 0 16] ∧ t.wovf = s.wovf) ∨
       (123 ≤ s.fifo.length ∧ t.fifo = s.fifo ∧ t.wovf = true))) ∨
    ((s.nextActivity = .run (.command 0x00001003#32) ∨ s.nextActivity = .run (.command 0x00000005#32) ∨
      s.nextActivity = .reset ∨
      (∃ v, v.getLsbD 0 = true ∧ s.nextActivity = .run (.access (.write 0x000#12 .w32 v)))) ∧
     t.fifo = [] ∧ t.wovf = false)

/-! ## Commands in general -/

/-- R128: whatever the command word, the Engine's step completes: BUSY falls, DONE rises, nothing is pending, EXC is 0
unless the code is 3, and irq follows IRQ_EN. -/
def Obligations.EveryCommandWordCompletes : Prop :=
  ∀ (s : State) (w : Word), ∃ t, exec (decodeCommand w) s = .next t ∧
    t.busy = false ∧ t.done = true ∧ t.pend = none ∧ t.irq = s.irqEn ∧
    (t.errCode ≠ .deviceException → t.errExc = 0) ∧ (t.errCode ≠ .none → t.res0 = 0 ∧ t.res1 = 0) ∧
    t.ign = s.ign ∧ t.epoch = s.epoch ∧ t.draws = s.draws ∧ t.readData = s.readData ∧ t.agenda = s.agenda

/-- R134: no command writes an operand register, RXBUF, CRC or CTRL. -/
def Obligations.CommandsKeepTheOperands : Prop :=
  ∀ (s t : State) (w : Word), s.Inv → exec (decodeCommand w) s = .next t →
    t.slave = s.slave ∧ t.arg0 = s.arg0 ∧ t.arg1 = s.arg1 ∧ t.rxLen = s.rxLen ∧ t.crcAcc = s.crcAcc ∧
      t.irqEn = s.irqEn ∧ ∀ i, i < 256 → t.rxByte i = s.rxByte i

/-- R136: a command's completion is a function of its operands, and no byte of RXBUF at RX_LEN or above is one of
them. -/
def Obligations.CompletionDependsOnTheOperandsOnly : Prop :=
  ∀ (s₁ s₂ t₁ t₂ : State) (w : Word), SameOperands s₁ s₂ →
    exec (decodeCommand w) s₁ = .next t₁ → exec (decodeCommand w) s₂ = .next t₂ →
    t₂.errCode = t₁.errCode ∧ t₂.errExc = t₁.errExc ∧ t₂.res0 = t₁.res0 ∧ t₂.res1 = t₁.res1 ∧
    t₂.fifo = t₁.fifo ∧ t₂.wovf = t₁.wovf ∧
    (w ∈ [0x00000303#32, 0x00000603#32, 0x00001003#32] →
      t₂.txLen = t₁.txLen ∧ ∀ i, i < t₁.txLen.toNat → t₂.txByte i = t₁.txByte i) ∧
    (w = 0x00000304#32 → t₁.errCode = .none → ∀ i, i < t₁.res0.toNat → t₂.rdata i = t₁.rdata i)

/-- The numbers of the error codes, as a read of ERR shows them (R240). -/
def Obligations.ErrorCodesAreNumbered : Prop :=
  ErrorCode.none.bits = 0 ∧ ErrorCode.shortFrame.bits = 1 ∧ ErrorCode.addressMismatch.bits = 2 ∧
  ErrorCode.deviceException.bits = 3 ∧ ErrorCode.functionMismatch.bits = 4 ∧ ErrorCode.crcMismatch.bits = 5 ∧
  ErrorCode.byteCountMismatch.bits = 6 ∧ ErrorCode.encodingError.bits = 7 ∧ ErrorCode.illegalCommand.bits = 8

/-! ## CRC -/

/-- R154: CRC.COMPUTE, with everything it leaves unchanged. -/
def Obligations.CrcComputePutsTheCrcInResult0 : Prop :=
  ∀ s : State, exec .crcCompute s = .next { s with
    errCode := .none, errExc := 0, res0 := crc16 (s.rxPrefix s.rxLen.toNat), res1 := 0,
    busy := false, done := true, pend := none }

/-- R155, R156 (b): CRC.CHECK, with everything it leaves unchanged; the claimed CRC is a u16 value. -/
def Obligations.CrcCheckPutsTheMatchInResult1 : Prop :=
  ∀ s : State, ∃ t, exec .crcCheck s = .next t ∧
    t = { s with
      errCode := .none, errExc := 0, res0 := crc16 (s.rxPrefix s.rxLen.toNat), res1 := t.res1,
      busy := false, done := true, pend := none } ∧
    (s.arg1 = crc16 (s.rxPrefix s.rxLen.toNat) → t.res1 = 1) ∧ (s.arg1 ≠ crc16 (s.rxPrefix s.rxLen.toNat) → t.res1 = 0)

/-- R152, R153: the streaming port, busy or not. -/
def Obligations.CrcWriteAndFeedUpdateTheAccumulator : Prop :=
  ∀ (s : State) (v : Word),
    exec (.wrCrc v) s = .next { s with crcAcc := v.extractLsb' 0 16 } ∧
    exec (.feed v) s = .next { s with crcAcc := crcStep s.crcAcc (v.extractLsb' 0 8) }

/-- R156 (a): `wr CRC, 0xFFFF` and one feed of each byte leave the CRC of the sequence. -/
def Obligations.StreamingEqualsCrc16 : Prop :=
  ∀ (s : State) (bytes : List Byte),
    execAll (.wrCrc 0xFFFF :: bytes.map (fun x => .feed (x.setWidth 32))) s = .next { s with crcAcc := crc16 bytes }

/-- R156 (c): flipping any single bit of a sequence changes its CRC. -/
def Obligations.SingleBitFlipChangesTheCrc : Prop :=
  ∀ (pre post : List Byte) (x : Byte) (i : Nat), i < 8 →
    crc16 (pre ++ (x ^^^ (1#8 <<< i)) :: post) ≠ crc16 (pre ++ x :: post)

/-- R156 (d): the CRC is affine over GF(2). -/
def Obligations.CrcIsAffine : Prop :=
  ∀ a b : List Byte, a.length = b.length →
    crc16 (List.zipWith (· ^^^ ·) a b) = crc16 a ^^^ crc16 b ^^^ crc16 (List.replicate a.length 0x00#8)

/-- R156 (e): a sequence followed by its own CRC, low byte first, has CRC 0. -/
def Obligations.CrcResidueIsZero : Prop :=
  ∀ s : List Byte, crc16 (s ++ [(crc16 s).extractLsb' 0 8, (crc16 s).extractLsb' 8 8]) = 0

/-! ## Frame builder -/

/-- R172, R100: BUILD.RHR builds the 8-byte request for every count of at least 1 and fails on count 0. -/
def Obligations.BuildRhrMakesTheReadRequest : Prop :=
  ∀ s : State,
    (s.arg1 = 0 → exec .buildRhr s = .next { s with
      txLen := 0, errCode := .encodingError, errExc := 0, res0 := 0, res1 := 0, busy := false, done := true, pend := none }) ∧
    (s.arg1 ≠ 0 → ∃ t c, exec .buildRhr s = .next t ∧
      c = crc16 [s.slave, 0x03, hi8 s.arg0, lo8 s.arg0, hi8 s.arg1, lo8 s.arg1] ∧
      t.frame = [s.slave, 0x03, hi8 s.arg0, lo8 s.arg0, hi8 s.arg1, lo8 s.arg1, lo8 c, hi8 c] ∧
      (∀ a, (a < 0x100 ∨ 0x108 ≤ a) → t.byteAt a = s.byteAt a) ∧
      { t with mem := s.mem } = { s with
        txLen := 8, errCode := .none, errExc := 0, res0 := c, res1 := 0, busy := false, done := true, pend := none })

/-- R174, R101: BUILD.WSR builds the 8-byte request for every value. -/
def Obligations.BuildWsrMakesTheWriteRequest : Prop :=
  ∀ s : State, ∃ t c, exec .buildWsr s = .next t ∧
    c = crc16 [s.slave, 0x06, hi8 s.arg0, lo8 s.arg0, hi8 s.arg1, lo8 s.arg1] ∧
    t.frame = [s.slave, 0x06, hi8 s.arg0, lo8 s.arg0, hi8 s.arg1, lo8 s.arg1, lo8 c, hi8 c] ∧
    (∀ a, (a < 0x100 ∨ 0x108 ≤ a) → t.byteAt a = s.byteAt a) ∧
    { t with mem := s.mem } = { s with
      txLen := 8, errCode := .none, errExc := 0, res0 := c, res1 := 0, busy := false, done := true, pend := none }

/-- R176, R102: BUILD.WMR builds the frame of 9 + 2N bytes when N = len(Q), N ≥ 1 and WOVF = 0, fails otherwise, and
empties Q in every case. -/
def Obligations.BuildWmrMakesTheMultipleWriteRequest : Prop :=
  ∀ s : State, s.fifo.length ≤ 123 →
    ((s.wovf = true ∨ s.arg1.toNat ≠ s.fifo.length ∨ s.arg1 = 0) → exec .buildWmr s = .next { s with
      fifo := [], wovf := false, txLen := 0,
      errCode := .encodingError, errExc := 0, res0 := 0, res1 := 0, busy := false, done := true, pend := none }) ∧
    ((s.wovf = false ∧ s.arg1.toNat = s.fifo.length ∧ s.arg1 ≠ 0) → ∃ t body, exec .buildWmr s = .next t ∧
      body = [s.slave, 0x10, hi8 s.arg0, lo8 s.arg0, hi8 s.arg1, lo8 s.arg1, BitVec.ofNat 8 (2 * s.arg1.toNat)] ++
        (s.fifo.map (fun v => [hi8 v, lo8 v])).flatten ∧
      t.frame = body ++ [lo8 (crc16 body), hi8 (crc16 body)] ∧
      t.txLen.toNat = 9 + 2 * s.arg1.toNat ∧
      (∀ a, (a < 0x100 ∨ 0x100 + 9 + 2 * s.arg1.toNat ≤ a) → t.byteAt a = s.byteAt a) ∧
      { t with mem := s.mem } = { s with
        fifo := [], wovf := false, txLen := BitVec.ofNat 9 (9 + 2 * s.arg1.toNat),
        errCode := .none, errExc := 0, res0 := crc16 body, res1 := 0, busy := false, done := true, pend := none })

/-- Every frame a successful BUILD leaves in TXBUF ends in its CRC: the CRC of the whole frame is 0. -/
def Obligations.BuiltFrameHasZeroResidue : Prop :=
  ∀ (s t : State) (i : Instr), s.fifo.length ≤ 123 → (i = .buildRhr ∨ i = .buildWsr ∨ i = .buildWmr) →
    exec i s = .next t → t.errCode = .none → crc16 t.frame = 0

/-- R181: WFIFO.CLEAR empties Q, clears WOVF and completes, with everything it leaves unchanged. -/
def Obligations.WfifoClearEmptiesTheFifo : Prop :=
  ∀ s : State, exec .wfifoClear s = .next { s with
    fifo := [], wovf := false,
    errCode := .none, errExc := 0, res0 := 0, res1 := 0, busy := false, done := true, pend := none }

/-- R180: a push appends bits 15:0 while Q is not full, else only sets WOVF; while busy it only sets IGN. -/
def Obligations.PushAppendsOrSetsOverflow : Prop :=
  ∀ (s : State) (v : Word),
    (s.busy = true → exec (.push v) s = .next { s with ign := true }) ∧
    (s.busy = false → s.fifo.length < 123 → exec (.push v) s = .next { s with fifo := s.fifo ++ [v.extractLsb' 0 16] }) ∧
    (s.busy = false → 123 ≤ s.fifo.length → exec (.push v) s = .next { s with wovf := true })

/-! ## Frame parser -/

/-- R201 to R213: which failure a PARSE reports, in the fixed order, with everything a failed PARSE leaves unchanged. -/
def Obligations.ParseReportsTheFirstFailure : Prop :=
  ∀ (s : State) (i : Instr) (f : Byte) (len n : Nat),
    (i, f) ∈ [(Instr.parseRhr, 0x03#8), (Instr.parseWsr, 0x06#8), (Instr.parseWmr, 0x10#8)] →
    len = s.rxLen.toNat → n = s.arg1.toNat →
    let isException := 2 ≤ len ∧ s.rxByte 1 = f ||| 0x80
    let lengthGood := (isException ∧ len = 5) ∨ (¬isException ∧ f = 0x03 ∧ 5 + 2 * n ≤ len) ∨ (¬isException ∧ f ≠ 0x03 ∧ len = 8)
    let crcGood := s.rxByte (len - 1) ++ s.rxByte (len - 2) = crc16 (s.rxPrefix (len - 2))
    let failsWith := fun (code : ErrorCode) (exc : Byte) => exec i s = .next { s with
      errCode := code, errExc := exc, res0 := 0, res1 := 0, busy := false, done := true, pend := none }
    (¬lengthGood → failsWith .shortFrame 0) ∧
    (lengthGood → s.rxByte 0 ≠ s.slave → failsWith .addressMismatch 0) ∧
    (lengthGood → s.rxByte 0 = s.slave → s.rxByte 1 ^^^ 0x80 = f → failsWith .deviceException (s.rxByte 2)) ∧
    (lengthGood → s.rxByte 0 = s.slave → s.rxByte 1 ^^^ 0x80 ≠ f → s.rxByte 1 ≠ f → failsWith .functionMismatch 0) ∧
    (lengthGood → s.rxByte 0 = s.slave → s.rxByte 1 = f → ¬crcGood → failsWith .crcMismatch 0) ∧
    (lengthGood → s.rxByte 0 = s.slave → s.rxByte 1 = f → crcGood → f = 0x03 → (s.rxByte 2).toNat ≠ 2 * n →
      failsWith .byteCountMismatch 0)

/-- R215 to R217: a good 0x03 response puts its N values in RDATA[0..N), N at most 125, and changes no other byte. -/
def Obligations.ParseRhrReturnsTheRegisters : Prop :=
  ∀ (s : State) (len n : Nat), len = s.rxLen.toNat → n = s.arg1.toNat → len ≤ 256 →
    5 + 2 * n ≤ len → s.rxByte 0 = s.slave → s.rxByte 1 = 0x03 →
    s.rxByte (len - 1) ++ s.rxByte (len - 2) = crc16 (s.rxPrefix (len - 2)) → (s.rxByte 2).toNat = 2 * n →
    ∃ t, exec .parseRhr s = .next t ∧ n ≤ 125 ∧
      (∀ i, i < n → t.rdata i = s.rxByte (3 + 2 * i) ++ s.rxByte (4 + 2 * i)) ∧
      (∀ a, (a < 0x300 ∨ 0x300 + 4 * n ≤ a ∨ 2 ≤ a % 4) → t.byteAt a = s.byteAt a) ∧
      { t with mem := s.mem } = { s with
        errCode := .none, errExc := 0, res0 := s.arg1, res1 := 0, busy := false, done := true, pend := none }

/-- R218, R219: a good 0x06 or 0x10 response returns its echo, which is compared with nothing. -/
def Obligations.ParseWriteReturnsTheEcho : Prop :=
  ∀ (s : State) (i : Instr) (f : Byte), (i, f) ∈ [(Instr.parseWsr, 0x06#8), (Instr.parseWmr, 0x10#8)] →
    s.rxLen = 8 → s.rxByte 0 = s.slave → s.rxByte 1 = f → s.rxByte 7 ++ s.rxByte 6 = crc16 (s.rxPrefix 6) →
    exec i s = .next { s with
      errCode := .none, errExc := 0, res0 := s.rxByte 2 ++ s.rxByte 3, res1 := s.rxByte 4 ++ s.rxByte 5,
      busy := false, done := true, pend := none }

/-- R206: no bytes received, one byte, and fewer than five for 0x03, are SHORT_FRAME. -/
def Obligations.EmptyBufferIsShortFrame : Prop :=
  ∀ (s : State) (i : Instr), i ∈ [Instr.parseRhr, .parseWsr, .parseWmr] →
    (s.rxLen.toNat ≤ 1 ∨ (i = .parseRhr ∧ s.rxLen.toNat < 5)) →
    exec i s = .next { s with
      errCode := .shortFrame, errExc := 0, res0 := 0, res1 := 0, busy := false, done := true, pend := none }

/-- Changing one of the two trailing CRC bytes of a response that parses well makes it a CRC_MISMATCH. -/
def Obligations.CorruptedCrcByteIsReported : Prop :=
  ∀ (s₁ s₂ t₁ : State) (i : Instr) (j : Nat), i ∈ [Instr.parseRhr, .parseWsr, .parseWmr] →
    exec i s₁ = .next t₁ → t₁.errCode = .none →
    s₂.slave = s₁.slave → s₂.arg1 = s₁.arg1 → s₂.rxLen = s₁.rxLen →
    (j + 1 = s₁.rxLen.toNat ∨ j + 2 = s₁.rxLen.toNat) → s₂.rxByte j ≠ s₁.rxByte j →
    (∀ k, k < s₁.rxLen.toNat → k ≠ j → s₂.rxByte k = s₁.rxByte k) →
    exec i s₂ = .next { s₂ with
      errCode := .crcMismatch, errExc := 0, res0 := 0, res1 := 0, busy := false, done := true, pend := none }

/-- A 0x03 response that parses well still does so, with the same registers, followed by one 0x00 byte. -/
def Obligations.TrailingZeroByteIsAccepted : Prop :=
  ∀ s₁ s₂ t₁ : State, exec .parseRhr s₁ = .next t₁ → t₁.errCode = .none →
    s₂.slave = s₁.slave → s₂.arg1 = s₁.arg1 → s₁.rxLen.toNat < 256 → s₂.rxLen.toNat = s₁.rxLen.toNat + 1 →
    (∀ k, k < s₁.rxLen.toNat → s₂.rxByte k = s₁.rxByte k) → s₂.rxByte s₁.rxLen.toNat = 0x00 →
    ∃ t₂, exec .parseRhr s₂ = .next t₂ ∧ t₂.errCode = .none ∧ t₂.res0 = t₁.res0 ∧
      ∀ i, i < t₁.res0.toNat → t₂.rdata i = t₁.rdata i

/-- The frame BUILD.WSR makes, received back as the device's echo, parses well and returns its address and value. -/
def Obligations.EchoOfABuiltWriteParses : Prop :=
  ∀ s t r : State, exec .buildWsr s = .next t → r.slave = s.slave → r.rxLen = t.txLen →
    (∀ k, k < t.txLen.toNat → r.rxByte k = t.txByte k) →
    ∃ u, exec .parseWsr r = .next u ∧ u.errCode = .none ∧ u.res0 = s.arg0 ∧ u.res1 = s.arg1

/-! ## Host operations -/

/-- R133: a CTRL write with SRST = 1 is the soft reset, else it sets IRQ_EN and nothing else; busy or not. -/
def Obligations.CtrlWriteResetsOrEnablesTheInterrupt : Prop :=
  ∀ (s : State) (v : Word),
    (v.getLsbD 0 = true → ∃ t, exec (.wrCtrl v) s = .next t ∧ t.AtResetValues) ∧
    (v.getLsbD 0 = false → exec (.wrCtrl v) s = .next { s with irqEn := v.getLsbD 1 })

/-- R44: the values after reset, for the interface's reset state, for a hardware reset between any two steps and for a
soft reset, whatever the state before. -/
def Obligations.ResetLeavesTheResetValues : Prop :=
  State.reset.AtResetValues ∧ State.reset.irq = false ∧
  (∀ (s : State) (rest : List Event), s.agenda = .hardwareReset :: rest →
    ∃ t, step s = .next t ∧ t.AtResetValues ∧ t.irq = false) ∧
  (∀ (s : State) (v : Word), v.getLsbD 0 = true →
    ∃ t, exec (.wrCtrl v) s = .next t ∧ t.AtResetValues ∧ t.irq = false)

/-- The model's choices of log entries 4 and 18: after either reset every buffer byte is a free value of a new epoch,
and the fields that belong to the outside world stay. It holds whatever the free values are. -/
def Obligations.ResetsFreeTheBuffersAndKeepTheOutsideWorld : Prop :=
  ∀ (s : State) (v : Word) (rest : List Event),
    (v.getLsbD 0 = true → ∃ t, exec (.wrCtrl v) s = .next t ∧ t.epoch = s.epoch + 1 ∧
      (∀ a, t.byteAt a = Config.freeByte (s.epoch + 1) a) ∧
      t.agenda = s.agenda ∧ t.draws = s.draws ∧ t.readData = s.readData) ∧
    (s.agenda = .hardwareReset :: rest → ∃ t, step s = .next t ∧ t.epoch = s.epoch + 1 ∧
      (∀ a, t.byteAt a = Config.freeByte (s.epoch + 1) a) ∧
      t.agenda = rest ∧ t.draws = s.draws ∧ t.readData = s.readData)

/-- R132: a STATUS write clears DONE and IGN by ones in bits 1 and 3 and writes nothing else, busy or not. -/
def Obligations.StatusWriteClearsDoneAndIgn : Prop :=
  ∀ (s : State) (v : Word), ∃ t, exec (.wrStatus v) s = .next t ∧
    t = { s with done := t.done, ign := t.ign } ∧
    (v.getLsbD 1 = true → t.done = false) ∧ (v.getLsbD 1 = false → t.done = s.done) ∧
    (v.getLsbD 3 = true → t.ign = false) ∧ (v.getLsbD 3 = false → t.ign = s.ign)

/-- R122, R123: a CMD write of any word is accepted while idle and dropped with IGN = 1 while busy. -/
def Obligations.CmdWriteIsAcceptedOrDropped : Prop :=
  ∀ (s : State) (w : Word),
    (s.busy = false → exec (.wrCmd w) s = .next { s with pend := some w, busy := true, done := false }) ∧
    (s.busy = true → exec (.wrCmd w) s = .next { s with ign := true })

/-- R131: what each operand register keeps of a word written while idle, and the four lanes RXBUF stores, lane 0
first; nothing else changes. -/
def Obligations.OperandWritesKeepTheirFields : Prop :=
  ∀ (s : State) (v : Word), s.busy = false →
    exec (.wrSlave v) s = .next { s with slave := BitVec.ofNat 8 (v.toNat % 256) } ∧
    exec (.wrArg0 v) s = .next { s with arg0 := BitVec.ofNat 16 (v.toNat % 65536) } ∧
    exec (.wrArg1 v) s = .next { s with arg1 := BitVec.ofNat 16 (v.toNat % 65536) } ∧
    (∃ t, exec (.wrRxLen v) s = .next t ∧ t.rxLen.toNat = min v.toNat 256 ∧ t = { s with rxLen := t.rxLen }) ∧
    ∀ k : Byte, k.toNat % 4 = 0 → ∃ t, exec (.wrRxbuf k v) s = .next t ∧
      (∀ i, i < 4 → (t.rxByte (k.toNat + i)).toNat = v.toNat / 256 ^ i % 256) ∧
      (∀ a, (a < 0x200 + k.toNat ∨ 0x200 + k.toNat + 4 ≤ a) → t.byteAt a = s.byteAt a) ∧
      { t with mem := s.mem } = s

/-- R65: what an idle write puts into RXBUF, the next read of that offset returns. The place of the returned word is
the model's (log entry 7). -/
def Obligations.RxbufWriteThenReadReturnsTheWord : Prop :=
  ∀ (s : State) (k : Byte) (v : Word), s.busy = false → k.toNat % 4 = 0 →
    ∃ t, execAll [.wrRxbuf k v, .rdName (0x2#4 ++ k)] s = .next t ∧ t.readData = v

/-- The busy-write rule of 40_command_interface.md section 2 by offset: what is dropped with IGN = 1, what takes effect,
what is ignored anyway. That the step takes the access off the agenda is the model's (log entry 1). -/
def Obligations.BusyWritesFollowTheirOffset : Prop :=
  ∀ (s : State) (off : Offset) (v : Word) (rest : List Event),
    s.busy = true → off.toNat % 4 = 0 → s.agenda = .access (.write off .w32 v) :: rest →
    let dropped := off ∈ [0x008#12, 0x00C#12, 0x010#12, 0x014#12, 0x01C#12, 0x028#12] ∨ (0x200 ≤ off.toNat ∧ off.toNat ≤ 0x2FF)
    (dropped → step s = .next { s with agenda := rest, ign := true }) ∧
    (off = 0x000#12 → step s = exec (.wrCtrl v) { s with agenda := rest }) ∧
    (off = 0x004#12 → step s = exec (.wrStatus v) { s with agenda := rest }) ∧
    (off = 0x020#12 → step s = .next { s with agenda := rest, crcAcc := v.extractLsb' 0 16 }) ∧
    (off = 0x024#12 → step s = .next { s with agenda := rest, crcAcc := crcStep s.crcAcc (v.extractLsb' 0 8) }) ∧
    (¬dropped → off ∉ [0x000#12, 0x004#12, 0x020#12, 0x024#12] → step s = .next { s with agenda := rest })

/-- R98, R66: the accesses of `rxbytes` deliver a frame of up to 256 bytes, whatever its length is modulo 4, and change
no register but RX_LEN. -/
def Obligations.RxbytesDeliversTheFrame : Prop :=
  ∀ (s : State) (bytes : List Byte), s.busy = false → bytes.length ≤ 256 →
    ∃ t, execAll ((Asm.rxbytes bytes).map (fun a => decode (.access a))) s = .next t ∧ t.received = bytes ∧
      (∀ a, (a < 0x200 ∨ 0x300 ≤ a) → t.byteAt a = s.byteAt a) ∧
      { t with mem := s.mem } = { s with rxLen := BitVec.ofNat 9 bytes.length }

/-- R247: a CMD write beside a completion is ordered before it, and dropped with IGN = 1, or after it, and accepted.
Both orders are agendas of the model (log entries 1 and 17). -/
def Obligations.CmdWriteBesideACompletionHasBothOrders : Prop :=
  ∀ (s : State) (w v : Word) (rest : List Event), s.busy = true → s.pend = some w →
    (s.agenda = .access (.write 0x008#12 .w32 v) :: .engine :: rest →
      ∃ t, run 2 s = .next t ∧ t.busy = false ∧ t.done = true ∧ t.ign = true ∧ t.pend = none ∧ t.agenda = rest) ∧
    (s.agenda = .engine :: .access (.write 0x008#12 .w32 v) :: rest →
      ∃ t, run 2 s = .next t ∧ t.busy = true ∧ t.done = false ∧ t.ign = s.ign ∧ t.pend = some v ∧ t.agenda = rest)

/-- A reserved offset reads 0, and a write there, or at a read-only register or buffer, changes nothing, busy or not
(20_memory.md section 1 for the reserved offsets, 10_state.md section 2 and 40_command_interface.md sections 1 and 2 for
the read-only ones). That R61's end of RDATA's window, 0x3F3, holds against R39's formula is the model's choice of log
entry 19; the place of the returned word is that of log entry 7. -/
def Obligations.ReservedAndReadOnlyOffsetsIgnoreWrites : Prop :=
  ∀ (s : State) (off : Offset) (v : Word),
    exec (.wrRoOrReserved off v) s = .next s ∧
    (off.toNat % 4 = 0 →
      ((0x038 ≤ off.toNat ∧ off.toNat ≤ 0x0FF) ∨ 0x3F4 ≤ off.toNat →
        decode (.access (.write off .w32 v)) = .wrRoOrReserved off v ∧
        exec (decode (.access (.read off .w32))) s = .next { s with readData := 0 }) ∧
      (off ∈ [0x018#12, 0x02C#12, 0x030#12, 0x034#12] ∨ (0x100 ≤ off.toNat ∧ off.toNat ≤ 0x1FF) ∨
          (0x300 ≤ off.toNat ∧ off.toNat ≤ 0x3F3) →
        decode (.access (.write off .w32 v)) = .wrRoOrReserved off v))

/-- R130: what a read returns while idle: each register's fields at their places, 0 at a write-only register.
The place of the returned word is the model's (log entry 7). -/
def Obligations.IdleReadsReturnTheRegisters : Prop :=
  ∀ s : State, s.busy = false → s.fifo.length ≤ 123 →
    let reads := fun (off : Offset) (n : Nat) => exec (.rdName off) s = .next { s with readData := BitVec.ofNat 32 n }
    reads 0x000 (2 * s.irqEn.toNat) ∧
    reads 0x004 (2 * s.done.toNat + (if s.errCode = .none then 0 else 4) + 8 * s.ign.toNat + 16 * s.wovf.toNat +
      256 * s.fifo.length) ∧
    reads 0x008 0 ∧ reads 0x00C s.slave.toNat ∧ reads 0x010 s.arg0.toNat ∧ reads 0x014 s.arg1.toNat ∧
    reads 0x018 s.txLen.toNat ∧ reads 0x01C s.rxLen.toNat ∧ reads 0x020 s.crcAcc.toNat ∧ reads 0x024 0 ∧ reads 0x028 0 ∧
    reads 0x02C (s.errCode.bits.toNat + 256 * s.errExc.toNat) ∧
    reads 0x030 s.res0.toNat ∧ reads 0x034 s.res1.toNat

/-- R130, R65: what an idle read of the buffers returns: four bytes, lowest offset in the least significant lane; one
RDATA entry in bits 15:0, bits 31:16 zero; 0 past 0x3F3. That the window ends there, against R39's formula, is the model's
choice of log entry 19, the place of the returned word that of log entry 7. -/
def Obligations.IdleReadsReturnTheBuffers : Prop :=
  ∀ (s : State) (off : Offset), s.busy = false → off.toNat % 4 = 0 →
    ((0x100 ≤ off.toNat ∧ off.toNat ≤ 0x1FF) → ∃ t, exec (.rdName off) s = .next t ∧ t = { s with readData := t.readData } ∧
      ∀ i, i < 4 → t.readData.toNat / 256 ^ i % 256 = (s.txByte (off.toNat - 0x100 + i)).toNat) ∧
    ((0x200 ≤ off.toNat ∧ off.toNat ≤ 0x2FF) → ∃ t, exec (.rdName off) s = .next t ∧ t = { s with readData := t.readData } ∧
      ∀ i, i < 4 → t.readData.toNat / 256 ^ i % 256 = (s.rxByte (off.toNat - 0x200 + i)).toNat) ∧
    ((0x300 ≤ off.toNat ∧ off.toNat ≤ 0x3F3) →
      exec (.rdName off) s = .next { s with readData := BitVec.ofNat 32 (s.rdata ((off.toNat - 0x300) / 4)).toNat }) ∧
    (0x3F4 ≤ off.toNat → exec (.rdName off) s = .next { s with readData := 0 })

/-- R125: what a read returns while busy: a fresh draw for result state, of which STATUS takes bits 2, 4 and 15:8;
every other offset reads as while idle. It holds whatever the draws are; their form is the model's choice of log entry 5,
the place of the returned word that of log entry 7, the end of RDATA's window that of log entry 19. -/
def Obligations.BusyReadsDrawTheResultState : Prop :=
  ∀ (s : State) (off : Offset), s.Inv → s.busy = true → off.toNat % 4 = 0 →
    let result := off ∈ [0x018#12, 0x02C#12, 0x030#12, 0x034#12] ∨ (0x100 ≤ off.toNat ∧ off.toNat ≤ 0x1FF) ∨
      (0x300 ≤ off.toNat ∧ off.toNat ≤ 0x3F3)
    (result → exec (.rdName off) s = .next { s with readData := Config.freeWord s.draws, draws := s.draws + 1 }) ∧
    (off = 0x004#12 → ∃ t, exec (.rdName off) s = .next t ∧
      t = { s with readData := t.readData, draws := s.draws + 1 } ∧
      t.readData.getLsbD 0 = true ∧ t.readData.getLsbD 1 = false ∧ t.readData.getLsbD 3 = s.ign ∧
      (∀ i, i < 32 → (i = 2 ∨ i = 4 ∨ (8 ≤ i ∧ i ≤ 15)) → t.readData.getLsbD i = (Config.freeWord s.draws).getLsbD i) ∧
      (∀ i, (5 ≤ i ∧ i ≤ 7) ∨ 16 ≤ i → t.readData.getLsbD i = false)) ∧
    (¬result → off ≠ 0x004#12 → ∃ t u, exec (.rdName off) s = .next t ∧
      exec (.rdName off) { s with busy := false } = .next u ∧ t = { s with readData := u.readData })

/-- R69: a read changes nothing of the core, and while idle a second read returns the same. The read data
and the draws are fields of the model's own (log entries 5 and 7). -/
def Obligations.ReadsHaveNoSideEffect : Prop :=
  ∀ (s : State) (off : Offset), ∃ t, exec (.rdName off) s = .next t ∧
    { t with readData := s.readData, draws := s.draws } = s ∧
    (s.busy = false → ∃ u, exec (.rdName off) t = .next u ∧ u = t)

/-! ## Platform -/

/-- R60: an address of the window is decoded by its offset from CORE_BASE, which is its low 12 bits, whatever the base. -/
def Obligations.WindowOffsetIsTheLowTwelveBits : Prop :=
  Config.coreBase % 4096 = 0 ∧
  ∀ addr : Nat, inWindow addr → (offsetOf addr).toNat = addr % 4096 ∧ addr = Config.coreBase + (offsetOf addr).toNat

/-! ## The CRC step, the second race, the interrupt line, long frames -/

/-- R150, R151: the CRC step is the loop of eight iterations, written here on numbers, and crc16 starts from 0xFFFF and
takes one step for each byte, in order. -/
def Obligations.CrcStepIsTheEightIterationLoop : Prop :=
  (∀ (c : Half) (x : Byte), (crcStep c x).toNat =
    (fun n : Nat => if n % 2 = 1 then (n / 2) ^^^ 0xA001 else n / 2)^[8] (c.toNat ^^^ x.toNat)) ∧
  crc16 [] = 0xFFFF ∧ ∀ (s : List Byte) (x : Byte), crc16 (s ++ [x]) = crcStep (crc16 s) x

/-- A STATUS write that clears DONE beside a completion is ordered before it, and DONE ends 1, or after it, and DONE
ends 0 (60_exceptions.md section 4). Both orders are agendas of the model (log entries 1 and 17). -/
def Obligations.StatusWriteBesideACompletionHasBothOrders : Prop :=
  ∀ (s : State) (w v : Word) (rest : List Event), s.busy = true → s.pend = some w → v.getLsbD 1 = true →
    (s.agenda = .access (.write 0x004#12 .w32 v) :: .engine :: rest →
      ∃ t, run 2 s = .next t ∧ t.busy = false ∧ t.done = true ∧ t.pend = none ∧ t.agenda = rest) ∧
    (s.agenda = .engine :: .access (.write 0x004#12 .w32 v) :: rest →
      ∃ t, run 2 s = .next t ∧ t.busy = false ∧ t.done = false ∧ t.pend = none ∧ t.agenda = rest)

/-- The core drives the one input that IRQ_LINE names, at the level its polarity gives, and no other; the controller has
a request exactly while irq is 1, or, for an edge-triggered input, exactly when it rises. It holds whatever IRQ_LINE is;
the parameter's form is the model's choice of log entry 11. -/
def Obligations.IrqReachesTheLineOfThePlatform : Prop :=
  ∀ (s t : State) (controller number : Nat),
    (controller = Config.irqLine.controller ∧ number = Config.irqLine.number →
      s.irqLevelAt controller number = some (match Config.irqLine.polarity with
        | .activeHigh => s.irqEn && s.done
        | .activeLow => !(s.irqEn && s.done)) ∧
      (irqRequestAt s t controller number = true ↔ match Config.irqLine.trigger with
        | .level => t.irqEn = true ∧ t.done = true
        | .edge => (s.irqEn = false ∨ s.done = false) ∧ t.irqEn = true ∧ t.done = true)) ∧
    (¬(controller = Config.irqLine.controller ∧ number = Config.irqLine.number) →
      s.irqLevelAt controller number = none ∧ irqRequestAt s t controller number = false)

/-- The accesses of `rxbytes` with more than 256 bytes leave the first 256 in RXBUF and RX_LEN at 256, and change nothing
else: a longer response is truncated (92_eei_decisions.md D3, D31). That the offsets run on is the model's choice of log
entry 20. -/
def Obligations.LongRxbytesAreTruncated : Prop :=
  ∀ (s : State) (bytes : List Byte), s.busy = false → 256 < bytes.length → bytes.length < 2 ^ 32 →
    ∃ t, execAll ((Asm.rxbytes bytes).map (fun a => decode (.access a))) s = .next t ∧ t.received = bytes.take 256 ∧
      (∀ a, (a < 0x200 ∨ 0x300 ≤ a) → t.byteAt a = s.byteAt a) ∧
      { t with mem := s.mem } = { s with rxLen := 256 }
end

