-- ==== Sys2Proof/Laws/State.lean ====
section
/-! SUPPORT. One lemma per field per named update of the state, so that no proof unfolds a record update. -/

namespace Sys2Proof.Machine

/-! ## `State.accept` -/

@[simp] theorem State.accept_irqEn (s : State) (w : Word) : (s.accept w).irqEn = s.irqEn := rfl
@[simp] theorem State.accept_busy (s : State) (w : Word) : (s.accept w).busy = true := rfl
@[simp] theorem State.accept_done (s : State) (w : Word) : (s.accept w).done = false := rfl
@[simp] theorem State.accept_ign (s : State) (w : Word) : (s.accept w).ign = s.ign := rfl
@[simp] theorem State.accept_slave (s : State) (w : Word) : (s.accept w).slave = s.slave := rfl
@[simp] theorem State.accept_arg0 (s : State) (w : Word) : (s.accept w).arg0 = s.arg0 := rfl
@[simp] theorem State.accept_arg1 (s : State) (w : Word) : (s.accept w).arg1 = s.arg1 := rfl
@[simp] theorem State.accept_txLen (s : State) (w : Word) : (s.accept w).txLen = s.txLen := rfl
@[simp] theorem State.accept_rxLen (s : State) (w : Word) : (s.accept w).rxLen = s.rxLen := rfl
@[simp] theorem State.accept_crcAcc (s : State) (w : Word) : (s.accept w).crcAcc = s.crcAcc := rfl
@[simp] theorem State.accept_errCode (s : State) (w : Word) : (s.accept w).errCode = s.errCode := rfl
@[simp] theorem State.accept_errExc (s : State) (w : Word) : (s.accept w).errExc = s.errExc := rfl
@[simp] theorem State.accept_res0 (s : State) (w : Word) : (s.accept w).res0 = s.res0 := rfl
@[simp] theorem State.accept_res1 (s : State) (w : Word) : (s.accept w).res1 = s.res1 := rfl
@[simp] theorem State.accept_fifo (s : State) (w : Word) : (s.accept w).fifo = s.fifo := rfl
@[simp] theorem State.accept_wovf (s : State) (w : Word) : (s.accept w).wovf = s.wovf := rfl
@[simp] theorem State.accept_pend (s : State) (w : Word) : (s.accept w).pend = some w := rfl
@[simp] theorem State.accept_mem (s : State) (w : Word) : (s.accept w).mem = s.mem := rfl
@[simp] theorem State.accept_epoch (s : State) (w : Word) : (s.accept w).epoch = s.epoch := rfl
@[simp] theorem State.accept_draws (s : State) (w : Word) : (s.accept w).draws = s.draws := rfl
@[simp] theorem State.accept_readData (s : State) (w : Word) : (s.accept w).readData = s.readData := rfl
@[simp] theorem State.accept_agenda (s : State) (w : Word) : (s.accept w).agenda = s.agenda := rfl

/-! ## `State.complete` -/

@[simp] theorem State.complete_irqEn (s : State) (code : ErrorCode) (exc : Byte) (r0 r1 : Half) : (s.complete code exc r0 r1).irqEn = s.irqEn := rfl
@[simp] theorem State.complete_busy (s : State) (code : ErrorCode) (exc : Byte) (r0 r1 : Half) : (s.complete code exc r0 r1).busy = false := rfl
@[simp] theorem State.complete_done (s : State) (code : ErrorCode) (exc : Byte) (r0 r1 : Half) : (s.complete code exc r0 r1).done = true := rfl
@[simp] theorem State.complete_ign (s : State) (code : ErrorCode) (exc : Byte) (r0 r1 : Half) : (s.complete code exc r0 r1).ign = s.ign := rfl
@[simp] theorem State.complete_slave (s : State) (code : ErrorCode) (exc : Byte) (r0 r1 : Half) : (s.complete code exc r0 r1).slave = s.slave := rfl
@[simp] theorem State.complete_arg0 (s : State) (code : ErrorCode) (exc : Byte) (r0 r1 : Half) : (s.complete code exc r0 r1).arg0 = s.arg0 := rfl
@[simp] theorem State.complete_arg1 (s : State) (code : ErrorCode) (exc : Byte) (r0 r1 : Half) : (s.complete code exc r0 r1).arg1 = s.arg1 := rfl
@[simp] theorem State.complete_txLen (s : State) (code : ErrorCode) (exc : Byte) (r0 r1 : Half) : (s.complete code exc r0 r1).txLen = s.txLen := rfl
@[simp] theorem State.complete_rxLen (s : State) (code : ErrorCode) (exc : Byte) (r0 r1 : Half) : (s.complete code exc r0 r1).rxLen = s.rxLen := rfl
@[simp] theorem State.complete_crcAcc (s : State) (code : ErrorCode) (exc : Byte) (r0 r1 : Half) : (s.complete code exc r0 r1).crcAcc = s.crcAcc := rfl
@[simp] theorem State.complete_errCode (s : State) (code : ErrorCode) (exc : Byte) (r0 r1 : Half) : (s.complete code exc r0 r1).errCode = code := rfl
@[simp] theorem State.complete_errExc (s : State) (code : ErrorCode) (exc : Byte) (r0 r1 : Half) : (s.complete code exc r0 r1).errExc = exc := rfl
@[simp] theorem State.complete_res0 (s : State) (code : ErrorCode) (exc : Byte) (r0 r1 : Half) : (s.complete code exc r0 r1).res0 = r0 := rfl
@[simp] theorem State.complete_res1 (s : State) (code : ErrorCode) (exc : Byte) (r0 r1 : Half) : (s.complete code exc r0 r1).res1 = r1 := rfl
@[simp] theorem State.complete_fifo (s : State) (code : ErrorCode) (exc : Byte) (r0 r1 : Half) : (s.complete code exc r0 r1).fifo = s.fifo := rfl
@[simp] theorem State.complete_wovf (s : State) (code : ErrorCode) (exc : Byte) (r0 r1 : Half) : (s.complete code exc r0 r1).wovf = s.wovf := rfl
@[simp] theorem State.complete_pend (s : State) (code : ErrorCode) (exc : Byte) (r0 r1 : Half) : (s.complete code exc r0 r1).pend = none := rfl
@[simp] theorem State.complete_mem (s : State) (code : ErrorCode) (exc : Byte) (r0 r1 : Half) : (s.complete code exc r0 r1).mem = s.mem := rfl
@[simp] theorem State.complete_epoch (s : State) (code : ErrorCode) (exc : Byte) (r0 r1 : Half) : (s.complete code exc r0 r1).epoch = s.epoch := rfl
@[simp] theorem State.complete_draws (s : State) (code : ErrorCode) (exc : Byte) (r0 r1 : Half) : (s.complete code exc r0 r1).draws = s.draws := rfl
@[simp] theorem State.complete_readData (s : State) (code : ErrorCode) (exc : Byte) (r0 r1 : Half) : (s.complete code exc r0 r1).readData = s.readData := rfl
@[simp] theorem State.complete_agenda (s : State) (code : ErrorCode) (exc : Byte) (r0 r1 : Half) : (s.complete code exc r0 r1).agenda = s.agenda := rfl

/-! ## `State.clearFifo` -/

@[simp] theorem State.clearFifo_irqEn (s : State) : s.clearFifo.irqEn = s.irqEn := rfl
@[simp] theorem State.clearFifo_busy (s : State) : s.clearFifo.busy = s.busy := rfl
@[simp] theorem State.clearFifo_done (s : State) : s.clearFifo.done = s.done := rfl
@[simp] theorem State.clearFifo_ign (s : State) : s.clearFifo.ign = s.ign := rfl
@[simp] theorem State.clearFifo_slave (s : State) : s.clearFifo.slave = s.slave := rfl
@[simp] theorem State.clearFifo_arg0 (s : State) : s.clearFifo.arg0 = s.arg0 := rfl
@[simp] theorem State.clearFifo_arg1 (s : State) : s.clearFifo.arg1 = s.arg1 := rfl
@[simp] theorem State.clearFifo_txLen (s : State) : s.clearFifo.txLen = s.txLen := rfl
@[simp] theorem State.clearFifo_rxLen (s : State) : s.clearFifo.rxLen = s.rxLen := rfl
@[simp] theorem State.clearFifo_crcAcc (s : State) : s.clearFifo.crcAcc = s.crcAcc := rfl
@[simp] theorem State.clearFifo_errCode (s : State) : s.clearFifo.errCode = s.errCode := rfl
@[simp] theorem State.clearFifo_errExc (s : State) : s.clearFifo.errExc = s.errExc := rfl
@[simp] theorem State.clearFifo_res0 (s : State) : s.clearFifo.res0 = s.res0 := rfl
@[simp] theorem State.clearFifo_res1 (s : State) : s.clearFifo.res1 = s.res1 := rfl
@[simp] theorem State.clearFifo_fifo (s : State) : s.clearFifo.fifo = [] := rfl
@[simp] theorem State.clearFifo_wovf (s : State) : s.clearFifo.wovf = false := rfl
@[simp] theorem State.clearFifo_pend (s : State) : s.clearFifo.pend = s.pend := rfl
@[simp] theorem State.clearFifo_mem (s : State) : s.clearFifo.mem = s.mem := rfl
@[simp] theorem State.clearFifo_epoch (s : State) : s.clearFifo.epoch = s.epoch := rfl
@[simp] theorem State.clearFifo_draws (s : State) : s.clearFifo.draws = s.draws := rfl
@[simp] theorem State.clearFifo_readData (s : State) : s.clearFifo.readData = s.readData := rfl
@[simp] theorem State.clearFifo_agenda (s : State) : s.clearFifo.agenda = s.agenda := rfl

/-! ## `State.buildFail` -/

@[simp] theorem State.buildFail_irqEn (s : State) : s.buildFail.irqEn = s.irqEn := rfl
@[simp] theorem State.buildFail_busy (s : State) : s.buildFail.busy = false := rfl
@[simp] theorem State.buildFail_done (s : State) : s.buildFail.done = true := rfl
@[simp] theorem State.buildFail_ign (s : State) : s.buildFail.ign = s.ign := rfl
@[simp] theorem State.buildFail_slave (s : State) : s.buildFail.slave = s.slave := rfl
@[simp] theorem State.buildFail_arg0 (s : State) : s.buildFail.arg0 = s.arg0 := rfl
@[simp] theorem State.buildFail_arg1 (s : State) : s.buildFail.arg1 = s.arg1 := rfl
@[simp] theorem State.buildFail_txLen (s : State) : s.buildFail.txLen = 0 := rfl
@[simp] theorem State.buildFail_rxLen (s : State) : s.buildFail.rxLen = s.rxLen := rfl
@[simp] theorem State.buildFail_crcAcc (s : State) : s.buildFail.crcAcc = s.crcAcc := rfl
@[simp] theorem State.buildFail_errCode (s : State) : s.buildFail.errCode = .encodingError := rfl
@[simp] theorem State.buildFail_errExc (s : State) : s.buildFail.errExc = 0 := rfl
@[simp] theorem State.buildFail_res0 (s : State) : s.buildFail.res0 = 0 := rfl
@[simp] theorem State.buildFail_res1 (s : State) : s.buildFail.res1 = 0 := rfl
@[simp] theorem State.buildFail_fifo (s : State) : s.buildFail.fifo = s.fifo := rfl
@[simp] theorem State.buildFail_wovf (s : State) : s.buildFail.wovf = s.wovf := rfl
@[simp] theorem State.buildFail_pend (s : State) : s.buildFail.pend = none := rfl
@[simp] theorem State.buildFail_mem (s : State) : s.buildFail.mem = s.mem := rfl
@[simp] theorem State.buildFail_epoch (s : State) : s.buildFail.epoch = s.epoch := rfl
@[simp] theorem State.buildFail_draws (s : State) : s.buildFail.draws = s.draws := rfl
@[simp] theorem State.buildFail_readData (s : State) : s.buildFail.readData = s.readData := rfl
@[simp] theorem State.buildFail_agenda (s : State) : s.buildFail.agenda = s.agenda := rfl

/-! ## `State.emit` -/

@[simp] theorem State.emit_irqEn (s : State) (body : List Byte) : (s.emit body).irqEn = s.irqEn := rfl
@[simp] theorem State.emit_busy (s : State) (body : List Byte) : (s.emit body).busy = false := rfl
@[simp] theorem State.emit_done (s : State) (body : List Byte) : (s.emit body).done = true := rfl
@[simp] theorem State.emit_ign (s : State) (body : List Byte) : (s.emit body).ign = s.ign := rfl
@[simp] theorem State.emit_slave (s : State) (body : List Byte) : (s.emit body).slave = s.slave := rfl
@[simp] theorem State.emit_arg0 (s : State) (body : List Byte) : (s.emit body).arg0 = s.arg0 := rfl
@[simp] theorem State.emit_arg1 (s : State) (body : List Byte) : (s.emit body).arg1 = s.arg1 := rfl
@[simp] theorem State.emit_txLen (s : State) (body : List Byte) : (s.emit body).txLen = BitVec.ofNat 9 (appendCrc body).length := rfl
@[simp] theorem State.emit_rxLen (s : State) (body : List Byte) : (s.emit body).rxLen = s.rxLen := rfl
@[simp] theorem State.emit_crcAcc (s : State) (body : List Byte) : (s.emit body).crcAcc = s.crcAcc := rfl
@[simp] theorem State.emit_errCode (s : State) (body : List Byte) : (s.emit body).errCode = .none := rfl
@[simp] theorem State.emit_errExc (s : State) (body : List Byte) : (s.emit body).errExc = 0 := rfl
@[simp] theorem State.emit_res0 (s : State) (body : List Byte) : (s.emit body).res0 = crc16 body := rfl
@[simp] theorem State.emit_res1 (s : State) (body : List Byte) : (s.emit body).res1 = 0 := rfl
@[simp] theorem State.emit_fifo (s : State) (body : List Byte) : (s.emit body).fifo = s.fifo := rfl
@[simp] theorem State.emit_wovf (s : State) (body : List Byte) : (s.emit body).wovf = s.wovf := rfl
@[simp] theorem State.emit_pend (s : State) (body : List Byte) : (s.emit body).pend = none := rfl
@[simp] theorem State.emit_mem (s : State) (body : List Byte) : (s.emit body).mem = Memory.writeBytes s.mem Reg.txbuf (appendCrc body) := rfl
@[simp] theorem State.emit_epoch (s : State) (body : List Byte) : (s.emit body).epoch = s.epoch := rfl
@[simp] theorem State.emit_draws (s : State) (body : List Byte) : (s.emit body).draws = s.draws := rfl
@[simp] theorem State.emit_readData (s : State) (body : List Byte) : (s.emit body).readData = s.readData := rfl
@[simp] theorem State.emit_agenda (s : State) (body : List Byte) : (s.emit body).agenda = s.agenda := rfl

/-! ## `State.storeWord` -/

@[simp] theorem State.storeWord_irqEn (s : State) (a : Nat) (v : Word) : (s.storeWord a v).irqEn = s.irqEn := rfl
@[simp] theorem State.storeWord_busy (s : State) (a : Nat) (v : Word) : (s.storeWord a v).busy = s.busy := rfl
@[simp] theorem State.storeWord_done (s : State) (a : Nat) (v : Word) : (s.storeWord a v).done = s.done := rfl
@[simp] theorem State.storeWord_ign (s : State) (a : Nat) (v : Word) : (s.storeWord a v).ign = s.ign := rfl
@[simp] theorem State.storeWord_slave (s : State) (a : Nat) (v : Word) : (s.storeWord a v).slave = s.slave := rfl
@[simp] theorem State.storeWord_arg0 (s : State) (a : Nat) (v : Word) : (s.storeWord a v).arg0 = s.arg0 := rfl
@[simp] theorem State.storeWord_arg1 (s : State) (a : Nat) (v : Word) : (s.storeWord a v).arg1 = s.arg1 := rfl
@[simp] theorem State.storeWord_txLen (s : State) (a : Nat) (v : Word) : (s.storeWord a v).txLen = s.txLen := rfl
@[simp] theorem State.storeWord_rxLen (s : State) (a : Nat) (v : Word) : (s.storeWord a v).rxLen = s.rxLen := rfl
@[simp] theorem State.storeWord_crcAcc (s : State) (a : Nat) (v : Word) : (s.storeWord a v).crcAcc = s.crcAcc := rfl
@[simp] theorem State.storeWord_errCode (s : State) (a : Nat) (v : Word) : (s.storeWord a v).errCode = s.errCode := rfl
@[simp] theorem State.storeWord_errExc (s : State) (a : Nat) (v : Word) : (s.storeWord a v).errExc = s.errExc := rfl
@[simp] theorem State.storeWord_res0 (s : State) (a : Nat) (v : Word) : (s.storeWord a v).res0 = s.res0 := rfl
@[simp] theorem State.storeWord_res1 (s : State) (a : Nat) (v : Word) : (s.storeWord a v).res1 = s.res1 := rfl
@[simp] theorem State.storeWord_fifo (s : State) (a : Nat) (v : Word) : (s.storeWord a v).fifo = s.fifo := rfl
@[simp] theorem State.storeWord_wovf (s : State) (a : Nat) (v : Word) : (s.storeWord a v).wovf = s.wovf := rfl
@[simp] theorem State.storeWord_pend (s : State) (a : Nat) (v : Word) : (s.storeWord a v).pend = s.pend := rfl
@[simp] theorem State.storeWord_mem (s : State) (a : Nat) (v : Word) : (s.storeWord a v).mem = Memory.writeBytes s.mem a [lane v 0, lane v 1, lane v 2, lane v 3] := rfl
@[simp] theorem State.storeWord_epoch (s : State) (a : Nat) (v : Word) : (s.storeWord a v).epoch = s.epoch := rfl
@[simp] theorem State.storeWord_draws (s : State) (a : Nat) (v : Word) : (s.storeWord a v).draws = s.draws := rfl
@[simp] theorem State.storeWord_readData (s : State) (a : Nat) (v : Word) : (s.storeWord a v).readData = s.readData := rfl
@[simp] theorem State.storeWord_agenda (s : State) (a : Nat) (v : Word) : (s.storeWord a v).agenda = s.agenda := rfl

/-! ## `State.takeEvent` -/

@[simp] theorem State.takeEvent_irqEn (s : State) : s.takeEvent.irqEn = s.irqEn := rfl
@[simp] theorem State.takeEvent_busy (s : State) : s.takeEvent.busy = s.busy := rfl
@[simp] theorem State.takeEvent_done (s : State) : s.takeEvent.done = s.done := rfl
@[simp] theorem State.takeEvent_ign (s : State) : s.takeEvent.ign = s.ign := rfl
@[simp] theorem State.takeEvent_slave (s : State) : s.takeEvent.slave = s.slave := rfl
@[simp] theorem State.takeEvent_arg0 (s : State) : s.takeEvent.arg0 = s.arg0 := rfl
@[simp] theorem State.takeEvent_arg1 (s : State) : s.takeEvent.arg1 = s.arg1 := rfl
@[simp] theorem State.takeEvent_txLen (s : State) : s.takeEvent.txLen = s.txLen := rfl
@[simp] theorem State.takeEvent_rxLen (s : State) : s.takeEvent.rxLen = s.rxLen := rfl
@[simp] theorem State.takeEvent_crcAcc (s : State) : s.takeEvent.crcAcc = s.crcAcc := rfl
@[simp] theorem State.takeEvent_errCode (s : State) : s.takeEvent.errCode = s.errCode := rfl
@[simp] theorem State.takeEvent_errExc (s : State) : s.takeEvent.errExc = s.errExc := rfl
@[simp] theorem State.takeEvent_res0 (s : State) : s.takeEvent.res0 = s.res0 := rfl
@[simp] theorem State.takeEvent_res1 (s : State) : s.takeEvent.res1 = s.res1 := rfl
@[simp] theorem State.takeEvent_fifo (s : State) : s.takeEvent.fifo = s.fifo := rfl
@[simp] theorem State.takeEvent_wovf (s : State) : s.takeEvent.wovf = s.wovf := rfl
@[simp] theorem State.takeEvent_pend (s : State) : s.takeEvent.pend = s.pend := rfl
@[simp] theorem State.takeEvent_mem (s : State) : s.takeEvent.mem = s.mem := rfl
@[simp] theorem State.takeEvent_epoch (s : State) : s.takeEvent.epoch = s.epoch := rfl
@[simp] theorem State.takeEvent_draws (s : State) : s.takeEvent.draws = s.draws := rfl
@[simp] theorem State.takeEvent_readData (s : State) : s.takeEvent.readData = s.readData := rfl
@[simp] theorem State.takeEvent_agenda (s : State) : s.takeEvent.agenda = s.agenda.tail := rfl

/-! ## `State.readSuccess` -/

@[simp] theorem State.readSuccess_irqEn (s : State) : s.readSuccess.irqEn = s.irqEn := rfl
@[simp] theorem State.readSuccess_busy (s : State) : s.readSuccess.busy = false := rfl
@[simp] theorem State.readSuccess_done (s : State) : s.readSuccess.done = true := rfl
@[simp] theorem State.readSuccess_ign (s : State) : s.readSuccess.ign = s.ign := rfl
@[simp] theorem State.readSuccess_slave (s : State) : s.readSuccess.slave = s.slave := rfl
@[simp] theorem State.readSuccess_arg0 (s : State) : s.readSuccess.arg0 = s.arg0 := rfl
@[simp] theorem State.readSuccess_arg1 (s : State) : s.readSuccess.arg1 = s.arg1 := rfl
@[simp] theorem State.readSuccess_txLen (s : State) : s.readSuccess.txLen = s.txLen := rfl
@[simp] theorem State.readSuccess_rxLen (s : State) : s.readSuccess.rxLen = s.rxLen := rfl
@[simp] theorem State.readSuccess_crcAcc (s : State) : s.readSuccess.crcAcc = s.crcAcc := rfl
@[simp] theorem State.readSuccess_errCode (s : State) : s.readSuccess.errCode = .none := rfl
@[simp] theorem State.readSuccess_errExc (s : State) : s.readSuccess.errExc = 0 := rfl
@[simp] theorem State.readSuccess_res0 (s : State) : s.readSuccess.res0 = s.arg1 := rfl
@[simp] theorem State.readSuccess_res1 (s : State) : s.readSuccess.res1 = 0 := rfl
@[simp] theorem State.readSuccess_fifo (s : State) : s.readSuccess.fifo = s.fifo := rfl
@[simp] theorem State.readSuccess_wovf (s : State) : s.readSuccess.wovf = s.wovf := rfl
@[simp] theorem State.readSuccess_pend (s : State) : s.readSuccess.pend = none := rfl
@[simp] theorem State.readSuccess_mem (s : State) : s.readSuccess.mem = Memory.writeHalves s.mem Reg.rdata (s.responseValues s.arg1.toNat) := rfl
@[simp] theorem State.readSuccess_epoch (s : State) : s.readSuccess.epoch = s.epoch := rfl
@[simp] theorem State.readSuccess_draws (s : State) : s.readSuccess.draws = s.draws := rfl
@[simp] theorem State.readSuccess_readData (s : State) : s.readSuccess.readData = s.readData := rfl
@[simp] theorem State.readSuccess_agenda (s : State) : s.readSuccess.agenda = s.agenda := rfl

/-! ## `State.resetCore` -/

@[simp] theorem State.resetCore_irqEn (s : State) : s.resetCore.irqEn = false := rfl
@[simp] theorem State.resetCore_busy (s : State) : s.resetCore.busy = false := rfl
@[simp] theorem State.resetCore_done (s : State) : s.resetCore.done = false := rfl
@[simp] theorem State.resetCore_ign (s : State) : s.resetCore.ign = false := rfl
@[simp] theorem State.resetCore_slave (s : State) : s.resetCore.slave = 0x00 := rfl
@[simp] theorem State.resetCore_arg0 (s : State) : s.resetCore.arg0 = 0x0000 := rfl
@[simp] theorem State.resetCore_arg1 (s : State) : s.resetCore.arg1 = 0x0000 := rfl
@[simp] theorem State.resetCore_txLen (s : State) : s.resetCore.txLen = 0 := rfl
@[simp] theorem State.resetCore_rxLen (s : State) : s.resetCore.rxLen = 0 := rfl
@[simp] theorem State.resetCore_crcAcc (s : State) : s.resetCore.crcAcc = 0xFFFF := rfl
@[simp] theorem State.resetCore_errCode (s : State) : s.resetCore.errCode = .none := rfl
@[simp] theorem State.resetCore_errExc (s : State) : s.resetCore.errExc = 0 := rfl
@[simp] theorem State.resetCore_res0 (s : State) : s.resetCore.res0 = 0 := rfl
@[simp] theorem State.resetCore_res1 (s : State) : s.resetCore.res1 = 0 := rfl
@[simp] theorem State.resetCore_fifo (s : State) : s.resetCore.fifo = [] := rfl
@[simp] theorem State.resetCore_wovf (s : State) : s.resetCore.wovf = false := rfl
@[simp] theorem State.resetCore_pend (s : State) : s.resetCore.pend = none := rfl
@[simp] theorem State.resetCore_mem (s : State) : s.resetCore.mem = [] := rfl
@[simp] theorem State.resetCore_epoch (s : State) : s.resetCore.epoch = s.epoch + 1 := rfl
@[simp] theorem State.resetCore_draws (s : State) : s.resetCore.draws = s.draws := rfl
@[simp] theorem State.resetCore_readData (s : State) : s.resetCore.readData = s.readData := rfl
@[simp] theorem State.resetCore_agenda (s : State) : s.resetCore.agenda = s.agenda := rfl

/-! ## `State.unlessBusy` and `State.pushValue` -/

theorem State.unlessBusy_of_busy {s : State} (s' : State) (h : s.busy = true) :
    s.unlessBusy s' = { s with ign := true } := by simp [State.unlessBusy, h]

theorem State.unlessBusy_of_idle {s : State} (s' : State) (h : s.busy = false) : s.unlessBusy s' = s' := by
  simp [State.unlessBusy, h]

/-- Everything a guarded write can do. -/
theorem State.unlessBusy_cases (s s' : State) :
    (s.busy = true ∧ s.unlessBusy s' = { s with ign := true }) ∨ (s.busy = false ∧ s.unlessBusy s' = s') := by
  cases h : s.busy <;> simp [State.unlessBusy, h]

/-- Everything a push can do. -/
theorem State.pushValue_cases (s : State) (x : Half) :
    (s.fifo.length < Config.wfifoDepth ∧ s.pushValue x = { s with fifo := s.fifo ++ [x] }) ∨
    (Config.wfifoDepth ≤ s.fifo.length ∧ s.pushValue x = { s with wovf := true }) := by
  unfold State.pushValue
  split
  · exact .inl ⟨‹_›, rfl⟩
  · exact .inr ⟨by omega, rfl⟩

@[simp] theorem State.unlessBusy_irqEn (s s' : State) :
    (s.unlessBusy s').irqEn = bif s.busy then s.irqEn else s'.irqEn := by
  unfold State.unlessBusy
  cases s.busy <;> rfl
@[simp] theorem State.unlessBusy_busy (s s' : State) :
    (s.unlessBusy s').busy = bif s.busy then s.busy else s'.busy := by
  unfold State.unlessBusy
  cases s.busy <;> rfl
@[simp] theorem State.unlessBusy_done (s s' : State) :
    (s.unlessBusy s').done = bif s.busy then s.done else s'.done := by
  unfold State.unlessBusy
  cases s.busy <;> rfl
@[simp] theorem State.unlessBusy_ign (s s' : State) :
    (s.unlessBusy s').ign = bif s.busy then true else s'.ign := by
  unfold State.unlessBusy
  cases s.busy <;> rfl
@[simp] theorem State.unlessBusy_slave (s s' : State) :
    (s.unlessBusy s').slave = bif s.busy then s.slave else s'.slave := by
  unfold State.unlessBusy
  cases s.busy <;> rfl
@[simp] theorem State.unlessBusy_arg0 (s s' : State) :
    (s.unlessBusy s').arg0 = bif s.busy then s.arg0 else s'.arg0 := by
  unfold State.unlessBusy
  cases s.busy <;> rfl
@[simp] theorem State.unlessBusy_arg1 (s s' : State) :
    (s.unlessBusy s').arg1 = bif s.busy then s.arg1 else s'.arg1 := by
  unfold State.unlessBusy
  cases s.busy <;> rfl
@[simp] theorem State.unlessBusy_txLen (s s' : State) :
    (s.unlessBusy s').txLen = bif s.busy then s.txLen else s'.txLen := by
  unfold State.unlessBusy
  cases s.busy <;> rfl
@[simp] theorem State.unlessBusy_rxLen (s s' : State) :
    (s.unlessBusy s').rxLen = bif s.busy then s.rxLen else s'.rxLen := by
  unfold State.unlessBusy
  cases s.busy <;> rfl
@[simp] theorem State.unlessBusy_crcAcc (s s' : State) :
    (s.unlessBusy s').crcAcc = bif s.busy then s.crcAcc else s'.crcAcc := by
  unfold State.unlessBusy
  cases s.busy <;> rfl
@[simp] theorem State.unlessBusy_errCode (s s' : State) :
    (s.unlessBusy s').errCode = bif s.busy then s.errCode else s'.errCode := by
  unfold State.unlessBusy
  cases s.busy <;> rfl
@[simp] theorem State.unlessBusy_errExc (s s' : State) :
    (s.unlessBusy s').errExc = bif s.busy then s.errExc else s'.errExc := by
  unfold State.unlessBusy
  cases s.busy <;> rfl
@[simp] theorem State.unlessBusy_res0 (s s' : State) :
    (s.unlessBusy s').res0 = bif s.busy then s.res0 else s'.res0 := by
  unfold State.unlessBusy
  cases s.busy <;> rfl
@[simp] theorem State.unlessBusy_res1 (s s' : State) :
    (s.unlessBusy s').res1 = bif s.busy then s.res1 else s'.res1 := by
  unfold State.unlessBusy
  cases s.busy <;> rfl
@[simp] theorem State.unlessBusy_fifo (s s' : State) :
    (s.unlessBusy s').fifo = bif s.busy then s.fifo else s'.fifo := by
  unfold State.unlessBusy
  cases s.busy <;> rfl
@[simp] theorem State.unlessBusy_wovf (s s' : State) :
    (s.unlessBusy s').wovf = bif s.busy then s.wovf else s'.wovf := by
  unfold State.unlessBusy
  cases s.busy <;> rfl
@[simp] theorem State.unlessBusy_pend (s s' : State) :
    (s.unlessBusy s').pend = bif s.busy then s.pend else s'.pend := by
  unfold State.unlessBusy
  cases s.busy <;> rfl
@[simp] theorem State.unlessBusy_mem (s s' : State) :
    (s.unlessBusy s').mem = bif s.busy then s.mem else s'.mem := by
  unfold State.unlessBusy
  cases s.busy <;> rfl
@[simp] theorem State.unlessBusy_epoch (s s' : State) :
    (s.unlessBusy s').epoch = bif s.busy then s.epoch else s'.epoch := by
  unfold State.unlessBusy
  cases s.busy <;> rfl
@[simp] theorem State.unlessBusy_draws (s s' : State) :
    (s.unlessBusy s').draws = bif s.busy then s.draws else s'.draws := by
  unfold State.unlessBusy
  cases s.busy <;> rfl
@[simp] theorem State.unlessBusy_readData (s s' : State) :
    (s.unlessBusy s').readData = bif s.busy then s.readData else s'.readData := by
  unfold State.unlessBusy
  cases s.busy <;> rfl
@[simp] theorem State.unlessBusy_agenda (s s' : State) :
    (s.unlessBusy s').agenda = bif s.busy then s.agenda else s'.agenda := by
  unfold State.unlessBusy
  cases s.busy <;> rfl

@[simp] theorem State.pushValue_irqEn (s : State) (x : Half) :
    (s.pushValue x).irqEn = s.irqEn := by
  unfold State.pushValue
  split <;> rfl
@[simp] theorem State.pushValue_busy (s : State) (x : Half) :
    (s.pushValue x).busy = s.busy := by
  unfold State.pushValue
  split <;> rfl
@[simp] theorem State.pushValue_done (s : State) (x : Half) :
    (s.pushValue x).done = s.done := by
  unfold State.pushValue
  split <;> rfl
@[simp] theorem State.pushValue_ign (s : State) (x : Half) :
    (s.pushValue x).ign = s.ign := by
  unfold State.pushValue
  split <;> rfl
@[simp] theorem State.pushValue_slave (s : State) (x : Half) :
    (s.pushValue x).slave = s.slave := by
  unfold State.pushValue
  split <;> rfl
@[simp] theorem State.pushValue_arg0 (s : State) (x : Half) :
    (s.pushValue x).arg0 = s.arg0 := by
  unfold State.pushValue
  split <;> rfl
@[simp] theorem State.pushValue_arg1 (s : State) (x : Half) :
    (s.pushValue x).arg1 = s.arg1 := by
  unfold State.pushValue
  split <;> rfl
@[simp] theorem State.pushValue_txLen (s : State) (x : Half) :
    (s.pushValue x).txLen = s.txLen := by
  unfold State.pushValue
  split <;> rfl
@[simp] theorem State.pushValue_rxLen (s : State) (x : Half) :
    (s.pushValue x).rxLen = s.rxLen := by
  unfold State.pushValue
  split <;> rfl
@[simp] theorem State.pushValue_crcAcc (s : State) (x : Half) :
    (s.pushValue x).crcAcc = s.crcAcc := by
  unfold State.pushValue
  split <;> rfl
@[simp] theorem State.pushValue_errCode (s : State) (x : Half) :
    (s.pushValue x).errCode = s.errCode := by
  unfold State.pushValue
  split <;> rfl
@[simp] theorem State.pushValue_errExc (s : State) (x : Half) :
    (s.pushValue x).errExc = s.errExc := by
  unfold State.pushValue
  split <;> rfl
@[simp] theorem State.pushValue_res0 (s : State) (x : Half) :
    (s.pushValue x).res0 = s.res0 := by
  unfold State.pushValue
  split <;> rfl
@[simp] theorem State.pushValue_res1 (s : State) (x : Half) :
    (s.pushValue x).res1 = s.res1 := by
  unfold State.pushValue
  split <;> rfl
@[simp] theorem State.pushValue_fifo (s : State) (x : Half) :
    (s.pushValue x).fifo = if s.fifo.length < Config.wfifoDepth then s.fifo ++ [x] else s.fifo := by
  unfold State.pushValue
  split <;> rfl
@[simp] theorem State.pushValue_wovf (s : State) (x : Half) :
    (s.pushValue x).wovf = if s.fifo.length < Config.wfifoDepth then s.wovf else true := by
  unfold State.pushValue
  split <;> rfl
@[simp] theorem State.pushValue_pend (s : State) (x : Half) :
    (s.pushValue x).pend = s.pend := by
  unfold State.pushValue
  split <;> rfl
@[simp] theorem State.pushValue_mem (s : State) (x : Half) :
    (s.pushValue x).mem = s.mem := by
  unfold State.pushValue
  split <;> rfl
@[simp] theorem State.pushValue_epoch (s : State) (x : Half) :
    (s.pushValue x).epoch = s.epoch := by
  unfold State.pushValue
  split <;> rfl
@[simp] theorem State.pushValue_draws (s : State) (x : Half) :
    (s.pushValue x).draws = s.draws := by
  unfold State.pushValue
  split <;> rfl
@[simp] theorem State.pushValue_readData (s : State) (x : Half) :
    (s.pushValue x).readData = s.readData := by
  unfold State.pushValue
  split <;> rfl
@[simp] theorem State.pushValue_agenda (s : State) (x : Half) :
    (s.pushValue x).agenda = s.agenda := by
  unfold State.pushValue
  split <;> rfl

/-- With no event left, taking one off changes nothing. -/
theorem State.takeEvent_of_nil {s : State} (h : s.agenda = []) : s.takeEvent = s := by
  cases s
  simp_all [State.takeEvent]

end Sys2Proof.Machine
end

