-- ==== Sys2Proof/Laws/Bits.lean ====
section
/-! SUPPORT. Laws of the parts of values: halves, byte lanes, and the offsets' low bits. -/

namespace Sys2Proof.Machine

/-! ## As numbers -/

theorem hi8_toNat (v : Half) : (hi8 v).toNat = v.toNat / 256 := by
  have := v.isLt
  simp only [hi8, BitVec.extractLsb'_toNat, Nat.shiftRight_eq_div_pow]
  omega

theorem lo8_toNat (v : Half) : (lo8 v).toNat = v.toNat % 256 := by
  simp [lo8, BitVec.extractLsb'_toNat]

theorem be16_toNat (p q : Byte) : (be16 p q).toNat = 256 * p.toNat + q.toNat := by
  have hq := q.isLt
  simp only [be16, BitVec.toNat_append]
  rw [← Nat.shiftLeft_add_eq_or_of_lt hq, Nat.shiftLeft_eq]
  omega

theorem lane_toNat (v : Word) (i : Nat) : (lane v i).toNat = v.toNat / 256 ^ i % 256 := by
  have h : (256 : Nat) ^ i = 2 ^ (8 * i) := by rw [Nat.pow_mul]
  simp [lane, BitVec.extractLsb'_toNat, Nat.shiftRight_eq_div_pow, h]

theorem packLanes_toNat (b0 b1 b2 b3 : Byte) :
    (packLanes b0 b1 b2 b3).toNat = b0.toNat + 256 * b1.toNat + 65536 * b2.toNat + 16777216 * b3.toNat := by
  have h0 := b0.isLt
  have h1 := b1.isLt
  have h2 := b2.isLt
  simp only [packLanes, BitVec.toNat_append]
  rw [← Nat.shiftLeft_add_eq_or_of_lt h2, ← Nat.shiftLeft_add_eq_or_of_lt h1, ← Nat.shiftLeft_add_eq_or_of_lt h0]
  simp only [Nat.shiftLeft_eq]
  omega

theorem byteField_toNat (v : Word) : (byteField v).toNat = v.toNat % 256 := by
  simp [byteField, BitVec.extractLsb'_toNat]

theorem halfField_toNat (v : Word) : (halfField v).toNat = v.toNat % 65536 := by
  simp [halfField, BitVec.extractLsb'_toNat]

theorem rxLenField_toNat (v : Word) : (rxLenField v).toNat = min v.toNat 256 := by
  simp only [rxLenField, BitVec.toNat_ofNat, Config.rxCap]
  omega

/-! ## Taking apart and putting together -/

@[simp] theorem hi8_be16 (p q : Byte) : hi8 (be16 p q) = p := by
  have hq := q.isLt
  apply BitVec.eq_of_toNat_eq
  rw [hi8_toNat, be16_toNat]
  omega

@[simp] theorem lo8_be16 (p q : Byte) : lo8 (be16 p q) = q := by
  have hq := q.isLt
  apply BitVec.eq_of_toNat_eq
  rw [lo8_toNat, be16_toNat]
  omega

@[simp] theorem be16_hi8_lo8 (v : Half) : be16 (hi8 v) (lo8 v) = v := by
  apply BitVec.eq_of_toNat_eq
  rw [be16_toNat, hi8_toNat, lo8_toNat]
  omega

/-- Two bytes are determined by the u16 they make. -/
theorem be16_inj {p q p' q' : Byte} (h : be16 p q = be16 p' q') : p = p' ∧ q = q' := by
  have h1 := congrArg hi8 h
  have h2 := congrArg lo8 h
  simpa using And.intro h1 h2

/-- Lane `i` of four packed bytes is byte `i` (R65). -/
theorem lane_packLanes (b0 b1 b2 b3 : Byte) :
    lane (packLanes b0 b1 b2 b3) 0 = b0 ∧ lane (packLanes b0 b1 b2 b3) 1 = b1 ∧
      lane (packLanes b0 b1 b2 b3) 2 = b2 ∧ lane (packLanes b0 b1 b2 b3) 3 = b3 := by
  have h0 := b0.isLt
  have h1 := b1.isLt
  have h2 := b2.isLt
  have h3 := b3.isLt
  refine ⟨?_, ?_, ?_, ?_⟩ <;> apply BitVec.eq_of_toNat_eq <;> rw [lane_toNat, packLanes_toNat] <;> norm_num <;> omega

/-- Packing the lanes of a word gives it back (R65). -/
theorem packLanes_lane (v : Word) : packLanes (lane v 0) (lane v 1) (lane v 2) (lane v 3) = v := by
  have hv := v.isLt
  apply BitVec.eq_of_toNat_eq
  rw [packLanes_toNat]
  simp only [lane_toNat]
  norm_num
  omega

/-! ## Offsets -/

/-- The alignment check as arithmetic (R64). -/
theorem wordAligned_iff (off : Offset) : wordAligned off = true ↔ off.toNat % 4 = 0 := by
  simp [wordAligned, ← BitVec.toNat_inj, BitVec.extractLsb'_toNat]

theorem inRxbuf_iff (off : Offset) : inRxbuf off = true ↔ 0x200 ≤ off.toNat ∧ off.toNat ≤ 0x2FF := by
  have := off.isLt
  simp only [inRxbuf, beq_iff_eq, ← BitVec.toNat_inj, BitVec.extractLsb'_toNat, Nat.shiftRight_eq_div_pow]
  simp
  omega

theorem inTxbuf_iff (off : Offset) : inTxbuf off = true ↔ 0x100 ≤ off.toNat ∧ off.toNat ≤ 0x1FF := by
  have := off.isLt
  simp only [inTxbuf, beq_iff_eq, ← BitVec.toNat_inj, BitVec.extractLsb'_toNat, Nat.shiftRight_eq_div_pow]
  simp
  omega

theorem inRdata_iff (off : Offset) : inRdata off = true ↔ 0x300 ≤ off.toNat ∧ off.toNat ≤ 0x3F3 := by
  simp [inRdata]

theorem rxbufOffset_toNat (k : Byte) : (rxbufOffset k).toNat = 0x200 + k.toNat := by
  have h := k.isLt
  simp only [rxbufOffset, BitVec.toNat_append]
  rw [← Nat.shiftLeft_add_eq_or_of_lt h]
  simp [Nat.shiftLeft_eq]

/-- The low byte of an RXBUF offset names it (R65). -/
theorem rxbufOffset_low {off : Offset} (h : inRxbuf off = true) : rxbufOffset (off.extractLsb' 0 8) = off := by
  have hr := (inRxbuf_iff off).1 h
  apply BitVec.eq_of_toNat_eq
  rw [rxbufOffset_toNat, BitVec.extractLsb'_toNat]
  simp
  omega

@[simp] theorem low_rxbufOffset (k : Byte) : (rxbufOffset k).extractLsb' 0 8 = k := by
  have hk := k.isLt
  apply BitVec.eq_of_toNat_eq
  rw [BitVec.extractLsb'_toNat, rxbufOffset_toNat]
  simp
  omega

@[simp] theorem inRxbuf_rxbufOffset (k : Byte) : inRxbuf (rxbufOffset k) = true := by
  have hk := k.isLt
  rw [inRxbuf_iff, rxbufOffset_toNat]
  omega

end Sys2Proof.Machine
end

