-- ==== Sys2Proof/Laws/Memory.lean ====
section
/-! SUPPORT. The laws of the buffers' bytes: read after write, what a write leaves alone, and that every memory
operation keeps the canonical form. -/

namespace Sys2Proof.Machine

@[simp] theorem Memory.find_nil (a : Nat) : Memory.find [] a = none := rfl

/-- No byte is found below every listed offset. -/
theorem Memory.find_of_lt {m : List Host.Cell} {a : Nat} (h : ∀ c ∈ m, a < c.1) : Memory.find m a = none := by
  induction m with
  | nil => rfl
  | cons c m ih =>
    have hc : a < c.1 := h c (by simp)
    have hm : Memory.find m a = none := ih fun d hd => h d (by simp [hd])
    simp [Memory.find, show c.1 ≠ a by omega, hm]

/-- A byte is read as it was written, and every other byte as before. -/
theorem Memory.find_insert {m : List Host.Cell} (a b : Nat) (x : Byte) :
    Memory.find (Memory.insert m a x) b = if b = a then some x else Memory.find m b := by
  induction m with
  | nil =>
    by_cases h : b = a
    · simp [Memory.insert, Memory.find, h]
    · simp [Memory.insert, Memory.find, h, Ne.symm h]
  | cons c m ih =>
    obtain ⟨d, y⟩ := c
    simp only [Memory.insert]
    split
    · by_cases h : b = a
      · simp [Memory.find, h]
      · simp [Memory.find, h, Ne.symm h]
    · split
      · subst_vars
        by_cases h : b = d
        · simp [Memory.find, h]
        · simp [Memory.find, h, Ne.symm h]
      · by_cases h : d = b
        · subst h
          have : d ≠ a := by omega
          simp [Memory.find, this]
        · simp [Memory.find, h, ih]

/-- The offsets listed after a write. -/
theorem Memory.mem_insert {m : List Host.Cell} {a : Nat} {x : Byte} {c : Host.Cell}
    (h : c ∈ Memory.insert m a x) : c = (a, x) ∨ c ∈ m := by
  induction m with
  | nil => simpa [Memory.insert] using h
  | cons d m ih =>
    simp only [Memory.insert] at h
    split at h
    · simpa using h
    · split at h
      · rcases List.mem_cons.1 h with h | h
        · exact .inl h
        · exact .inr (by simp [h])
      · rcases List.mem_cons.1 h with h | h
        · exact .inr (by simp [h])
        · exact (ih h).imp_right fun h => by simp [h]

theorem Memory.insert_wf {m : List Host.Cell} (h : Memory.wf m) (a : Nat) (x : Byte) :
    Memory.wf (Memory.insert m a x) := by
  induction m with
  | nil => simp [Memory.insert, Memory.wf]
  | cons d m ih =>
    have hd := List.pairwise_cons.1 h
    simp only [Memory.insert]
    split
    · refine List.pairwise_cons.2 ⟨fun c hc => ?_, h⟩
      rcases List.mem_cons.1 hc with rfl | hc
      · assumption
      · have := hd.1 c hc
        simp only
        omega
    · split
      · subst_vars
        exact List.pairwise_cons.2 ⟨hd.1, hd.2⟩
      · refine List.pairwise_cons.2 ⟨fun c hc => ?_, ih hd.2⟩
        rcases Memory.mem_insert hc with rfl | hc
        · simp only
          omega
        · exact hd.1 c hc

/-- Reading after a write of consecutive bytes. -/
theorem Memory.find_writeBytes (m : List Host.Cell) (a b : Nat) (xs : List Byte) :
    Memory.find (Memory.writeBytes m a xs) b =
      if a ≤ b ∧ b < a + xs.length then xs[b - a]? else Memory.find m b := by
  induction xs generalizing m a with
  | nil => simp [Memory.writeBytes, show ¬(a ≤ b ∧ b < a) by omega]
  | cons x xs ih =>
    rw [Memory.writeBytes, ih, Memory.find_insert]
    simp only [List.length_cons]
    rcases Nat.lt_trichotomy b a with h | h | h
    · rw [if_neg (by omega), if_neg (by omega), if_neg (by omega)]
    · subst h
      simp
    · obtain ⟨k, rfl⟩ : ∃ k, b = a + 1 + k := ⟨b - (a + 1), by omega⟩
      have e1 : a + 1 + k - (a + 1) = k := by omega
      have e2 : a + 1 + k - a = k + 1 := by omega
      by_cases hk : k < xs.length
      · rw [if_pos (by omega), if_pos (by omega), e1, e2]
        simp
      · rw [if_neg (by omega), if_neg (by omega), if_neg (by omega)]

theorem Memory.writeBytes_wf {m : List Host.Cell} (h : Memory.wf m) (a : Nat) (xs : List Byte) :
    Memory.wf (Memory.writeBytes m a xs) := by
  induction xs generalizing m a with
  | nil => exact h
  | cons x xs ih => exact ih (Memory.insert_wf h a x) (a + 1)

theorem Memory.mem_writeBytes {m : List Host.Cell} {a : Nat} {xs : List Byte} {c : Host.Cell}
    (h : c ∈ Memory.writeBytes m a xs) : (a ≤ c.1 ∧ c.1 < a + xs.length) ∨ c ∈ m := by
  induction xs generalizing m a with
  | nil => exact .inr h
  | cons x xs ih =>
    simp only [List.length_cons]
    rcases ih h with h | h
    · exact .inl (by omega)
    · rcases Memory.mem_insert h with rfl | h
      · exact .inl (by simp)
      · exact .inr h

/-- Reading after a write of RDATA entries: lane 0 of an entry is its low byte, lane 1 its high byte, and nothing else
changes. -/
theorem Memory.find_writeHalves (m : List Host.Cell) (a b : Nat) (vs : List Half) :
    Memory.find (Memory.writeHalves m a vs) b =
      if a ≤ b ∧ b < a + 4 * vs.length ∧ (b - a) % 4 < 2 then
        (vs[(b - a) / 4]?).map (if (b - a) % 4 = 0 then lo8 else hi8)
      else Memory.find m b := by
  induction vs generalizing m a with
  | nil =>
    simp only [List.length_nil]
    rw [if_neg (by omega)]
    rfl
  | cons v vs ih =>
    rw [Memory.writeHalves, ih, Memory.find_insert, Memory.find_insert]
    simp only [List.length_cons]
    by_cases h : b < a + 4
    · rw [if_neg (by omega)]
      by_cases h1 : b = a + 1
      · subst h1
        rw [if_pos rfl, if_pos (by omega)]
        simp [show a + 1 - a = 1 by omega]
      · by_cases h0 : b = a
        · subst h0
          simp
        · rw [if_neg h1, if_neg h0, if_neg (by omega)]
    · obtain ⟨k, rfl⟩ : ∃ k, b = a + 4 + k := ⟨b - (a + 4), by omega⟩
      have e1 : a + 4 + k - (a + 4) = k := by omega
      have e0 : a + 4 + k - a = k + 4 := by omega
      have e2 : (k + 4) / 4 = k / 4 + 1 := by omega
      have e3 : (k + 4) % 4 = k % 4 := by omega
      rw [e1, e0, e2, e3, if_neg (show a + 4 + k ≠ a + 1 by omega), if_neg (show a + 4 + k ≠ a by omega)]
      by_cases hk : k < 4 * vs.length ∧ k % 4 < 2
      · have c1 : a + 4 ≤ a + 4 + k ∧ a + 4 + k < a + 4 + 4 * vs.length ∧ k % 4 < 2 := ⟨by omega, by omega, hk.2⟩
        have c2 : a ≤ a + 4 + k ∧ a + 4 + k < a + 4 * (vs.length + 1) ∧ k % 4 < 2 := ⟨by omega, by omega, hk.2⟩
        rw [if_pos c1, if_pos c2, List.getElem?_cons_succ]
      · rw [if_neg (fun h => hk ⟨by omega, h.2.2⟩), if_neg (fun h => hk ⟨by omega, h.2.2⟩)]

theorem Memory.writeHalves_wf {m : List Host.Cell} (h : Memory.wf m) (a : Nat) (vs : List Half) :
    Memory.wf (Memory.writeHalves m a vs) := by
  induction vs generalizing m a with
  | nil => exact h
  | cons v vs ih => exact ih (Memory.insert_wf (Memory.insert_wf h _ _) _ _) _

theorem Memory.mem_writeHalves {m : List Host.Cell} {a : Nat} {vs : List Half} {c : Host.Cell}
    (h : c ∈ Memory.writeHalves m a vs) :
    (a ≤ c.1 ∧ c.1 < a + 4 * vs.length ∧ (c.1 - a) % 4 < 2) ∨ c ∈ m := by
  induction vs generalizing m a with
  | nil => exact .inr h
  | cons v vs ih =>
    simp only [List.length_cons]
    rcases ih h with h | h
    · exact .inl (by omega)
    · rcases Memory.mem_insert h with rfl | h
      · exact .inl ⟨by simp, by simp; omega, by simp⟩
      · rcases Memory.mem_insert h with rfl | h
        · exact .inl (by simp)
        · exact .inr h

/-! ## Bytes of a state -/

/-- A byte depends on the memory and the epoch only. -/
theorem State.byteAt_congr {s t : State} (hm : t.mem = s.mem) (he : t.epoch = s.epoch) (a : Nat) :
    t.byteAt a = s.byteAt a := by simp [State.byteAt, hm, he]

@[simp] theorem State.byteAt_complete (s : State) (code : ErrorCode) (exc : Byte) (r0 r1 : Half) (a : Nat) :
    (s.complete code exc r0 r1).byteAt a = s.byteAt a := rfl
@[simp] theorem State.byteAt_buildFail (s : State) (a : Nat) : s.buildFail.byteAt a = s.byteAt a := rfl
@[simp] theorem State.byteAt_clearFifo (s : State) (a : Nat) : s.clearFifo.byteAt a = s.byteAt a := rfl
@[simp] theorem State.byteAt_accept (s : State) (w : Word) (a : Nat) : (s.accept w).byteAt a = s.byteAt a := rfl
@[simp] theorem State.byteAt_takeEvent (s : State) (a : Nat) : s.takeEvent.byteAt a = s.byteAt a := rfl

/-- After a reset every byte of the buffers is a free value of the new epoch (R44). -/
@[simp] theorem State.byteAt_resetCore (s : State) (a : Nat) :
    s.resetCore.byteAt a = Config.freeByte (s.epoch + 1) a := rfl

/-- Everything a write of consecutive bytes does to the bytes. -/
theorem State.byteAt_writeBytes {s t : State} {base : Nat} {xs : List Byte}
    (hm : t.mem = Memory.writeBytes s.mem base xs) (he : t.epoch = s.epoch) (a : Nat) :
    t.byteAt a = if a < base ∨ base + xs.length ≤ a then s.byteAt a else xs.getD (a - base) 0 := by
  unfold State.byteAt
  rw [hm, Memory.find_writeBytes, he]
  by_cases h : a < base ∨ base + xs.length ≤ a
  · rw [if_pos h, if_neg (by omega)]
  · rw [if_neg h, if_pos (by omega), List.getElem?_eq_getElem (by omega)]
    simp [List.getD, List.getElem?_eq_getElem (show a - base < xs.length by omega)]

/-- The bytes of TXBUF after a frame is emitted (R170, R171). -/
theorem State.byteAt_emit (s : State) (body : List Byte) (a : Nat) :
    (s.emit body).byteAt a =
      if a < Reg.txbuf ∨ Reg.txbuf + (appendCrc body).length ≤ a then s.byteAt a
      else (appendCrc body).getD (a - Reg.txbuf) 0 :=
  State.byteAt_writeBytes (State.emit_mem s body) (State.emit_epoch s body) a

/-- The bytes after a bus word is stored (R65). -/
theorem State.byteAt_storeWord (s : State) (base : Nat) (v : Word) (a : Nat) :
    (s.storeWord base v).byteAt a =
      if a < base ∨ base + 4 ≤ a then s.byteAt a else [lane v 0, lane v 1, lane v 2, lane v 3].getD (a - base) 0 :=
  State.byteAt_writeBytes (State.storeWord_mem s base v) (State.storeWord_epoch s base v) a

/-- The frame a state holds after it was emitted, as long as it fits TX_LEN (R171). -/
theorem State.frame_emit (s : State) {body : List Byte} (h : body.length + 2 < 512) :
    (s.emit body).frame = appendCrc body := by
  have hlen : (appendCrc body).length = body.length + 2 := by simp [appendCrc]
  have htx : ((s.emit body).txLen).toNat = (appendCrc body).length := by
    rw [State.emit_txLen, BitVec.toNat_ofNat, hlen]
    exact Nat.mod_eq_of_lt h
  apply List.ext_getElem
  · simp only [State.frame, List.length_map, List.length_range, htx]
  · intro i h1 h2
    simp only [State.frame, List.getElem_map, List.getElem_range, State.txByte]
    rw [State.byteAt_emit, if_neg (by omega), Nat.add_sub_cancel_left]
    simp [List.getD, List.getElem?_eq_getElem h2]

theorem State.responseValues_length (s : State) (n : Nat) : (s.responseValues n).length = n := by
  simp [State.responseValues]

/-- The bytes after a good 0x03 response is stored (R216). -/
theorem State.byteAt_readSuccess (s : State) (a : Nat) (h : a < 0x300 ∨ 0x300 + 4 * s.arg1.toNat ≤ a ∨ 2 ≤ a % 4) :
    s.readSuccess.byteAt a = s.byteAt a := by
  unfold State.byteAt
  rw [State.readSuccess_mem, Memory.find_writeHalves, State.responseValues_length, if_neg, State.readSuccess_epoch]
  rintro ⟨h1, h2, h3⟩
  simp only [Reg.rdata] at h1 h2 h3
  omega

/-- The RDATA entries after a good 0x03 response is stored (R216). -/
theorem State.rdata_readSuccess (s : State) {i : Nat} (h : i < s.arg1.toNat) :
    s.readSuccess.rdata i = be16 (s.rxByte (3 + 2 * i)) (s.rxByte (4 + 2 * i)) := by
  have hv : (s.responseValues s.arg1.toNat)[i]? = some (be16 (s.rxByte (3 + 2 * i)) (s.rxByte (4 + 2 * i))) := by
    simp [State.responseValues, h]
  have h1 : s.readSuccess.byteAt (Reg.rdata + 4 * i + 1) = hi8 (be16 (s.rxByte (3 + 2 * i)) (s.rxByte (4 + 2 * i))) := by
    unfold State.byteAt
    rw [State.readSuccess_mem, Memory.find_writeHalves, State.responseValues_length, if_pos (by omega),
      show (Reg.rdata + 4 * i + 1 - Reg.rdata) / 4 = i by omega, hv,
      if_neg (show ¬(Reg.rdata + 4 * i + 1 - Reg.rdata) % 4 = 0 by omega)]
    rfl
  have h0 : s.readSuccess.byteAt (Reg.rdata + 4 * i) = lo8 (be16 (s.rxByte (3 + 2 * i)) (s.rxByte (4 + 2 * i))) := by
    unfold State.byteAt
    rw [State.readSuccess_mem, Memory.find_writeHalves, State.responseValues_length, if_pos (by omega),
      show (Reg.rdata + 4 * i - Reg.rdata) / 4 = i by omega, hv,
      if_pos (show (Reg.rdata + 4 * i - Reg.rdata) % 4 = 0 by omega)]
    rfl
  rw [State.rdata, h1, h0, be16_hi8_lo8]

end Sys2Proof.Machine
end

