-- ==== Sys2Proof/Laws/Decode.lean ====
section
/-! SUPPORT. Laws of the decoder: what a write's offset decodes to, and which cycles are BusErrors. -/

namespace Sys2Proof

open Machine

/-- An access is legal exactly when it is 32 bits wide and aligned (R64). -/
theorem HostAccess.legal_read (off : Offset) (width : Width) :
    (HostAccess.read off width).legal = true ↔ width = .w32 ∧ off.toNat % 4 = 0 := by
  simp [HostAccess.legal, wordAligned_iff]

theorem HostAccess.legal_write (off : Offset) (width : Width) (v : Word) :
    (HostAccess.write off width v).legal = true ↔ width = .w32 ∧ off.toNat % 4 = 0 := by
  simp [HostAccess.legal, wordAligned_iff]

/-- An illegal access decodes to a BusError (R64, R246). -/
theorem decodeAccess_illegal {a : HostAccess} (h : a.legal = false) : decodeAccess a = .busError a := by
  simp [decodeAccess, h]

/-- An aligned 32-bit read (R130). -/
theorem decodeAccess_read {off : Offset} (h : wordAligned off = true) :
    decodeAccess (.read off .w32) = .rdName off := by
  simp [decodeAccess, HostAccess.legal, h]

/-- An aligned 32-bit write is dispatched by its offset (R121). -/
theorem decodeAccess_write {off : Offset} (v : Word) (h : wordAligned off = true) :
    decodeAccess (.write off .w32 v) = decodeWrite off v := by
  simp [decodeAccess, HostAccess.legal, h]

/-- A write never decodes to a BusError. -/
theorem decodeWrite_ne_busError (off : Offset) (v : Word) (a : HostAccess) : decodeWrite off v ≠ .busError a := by
  unfold decodeWrite
  repeat' split
  all_goals simp

/-- A command word never decodes to a BusError. -/
theorem decodeCommand_ne_busError (w : Word) (a : HostAccess) : decodeCommand w ≠ .busError a := by
  unfold decodeCommand
  repeat' split
  all_goals simp

/-- A legal access never decodes to a BusError. -/
theorem decodeAccess_ne_busError {a : HostAccess} (h : a.legal = true) (b : HostAccess) :
    decodeAccess a ≠ .busError b := by
  cases a with
  | read off width => simp [decodeAccess, h]
  | write off width v => simpa [decodeAccess, h] using decodeWrite_ne_busError off v b

/-- The ten instructions of the command rows (R94, R95). -/
theorem decodeCommand_cases (w : Word) :
    (w = 0x00000001#32 ∧ decodeCommand w = .crcCompute) ∨ (w = 0x00000002#32 ∧ decodeCommand w = .crcCheck) ∨
    (w = 0x00000303#32 ∧ decodeCommand w = .buildRhr) ∨ (w = 0x00000603#32 ∧ decodeCommand w = .buildWsr) ∨
    (w = 0x00001003#32 ∧ decodeCommand w = .buildWmr) ∨ (w = 0x00000304#32 ∧ decodeCommand w = .parseRhr) ∨
    (w = 0x00000604#32 ∧ decodeCommand w = .parseWsr) ∨ (w = 0x00001004#32 ∧ decodeCommand w = .parseWmr) ∨
    (w = 0x00000005#32 ∧ decodeCommand w = .wfifoClear) ∨ decodeCommand w = .illegalCommand w := by
  unfold decodeCommand
  repeat' split
  all_goals simp_all

/-- The instructions a write can decode to, each with its offset (R121). -/
theorem decodeWrite_cases (off : Offset) (v : Word) :
    (off = 0x000#12 ∧ decodeWrite off v = .wrCtrl v) ∨ (off = 0x004#12 ∧ decodeWrite off v = .wrStatus v) ∨
    (off = 0x008#12 ∧ decodeWrite off v = .wrCmd v) ∨ (off = 0x00C#12 ∧ decodeWrite off v = .wrSlave v) ∨
    (off = 0x010#12 ∧ decodeWrite off v = .wrArg0 v) ∨ (off = 0x014#12 ∧ decodeWrite off v = .wrArg1 v) ∨
    (off = 0x01C#12 ∧ decodeWrite off v = .wrRxLen v) ∨ (off = 0x020#12 ∧ decodeWrite off v = .wrCrc v) ∨
    (off = 0x024#12 ∧ decodeWrite off v = .feed v) ∨ (off = 0x028#12 ∧ decodeWrite off v = .push v) ∨
    (inRxbuf off = true ∧ decodeWrite off v = .wrRxbuf (off.extractLsb' 0 8) v) ∨
    (off ∉ writableRegisters ∧ inRxbuf off = false ∧ decodeWrite off v = .wrRoOrReserved off v) := by
  unfold decodeWrite
  repeat' split
  all_goals simp_all [writableRegisters]

end Sys2Proof
end

