-- ==== Sys2Proof/Laws/Parser.lean ====
section
/-! SUPPORT. Laws of the parser and of the CRC over sequences: what a PARSE can end in, and when it succeeds. -/

namespace Sys2Proof.Machine

/-- A PARSE ends in the success of its command, or in the completion that reports the first failure (R201, R213). -/
theorem State.parse_eq (s : State) (f : Byte) (success : State) :
    s.parse f success =
      if parseCode f s.rxByte s.rxLen.toNat s.arg1.toNat s.slave = .none then success
      else s.complete (parseCode f s.rxByte s.rxLen.toNat s.arg1.toNat s.slave)
        (if parseCode f s.rxByte s.rxLen.toNat s.arg1.toNat s.slave = .deviceException then s.rxByte 2 else 0) 0 0 := by
  unfold State.parse
  cases parseCode f s.rxByte s.rxLen.toNat s.arg1.toNat s.slave <;> rfl

/-- Success means that every check passed (R201). -/
theorem parseCode_eq_none {f : Byte} {b : Nat → Byte} {len n : Nat} {slave : Byte}
    (h : parseCode f b len n slave = .none) :
    lengthOk f b len n = true ∧ b 0 = slave ∧ b 1 ^^^ 0x80 ≠ f ∧ b 1 = f ∧
      be16 (b (len - 1)) (b (len - 2)) = crc16 ((List.range (len - 2)).map b) ∧
      (f = fcReadHolding → (b 2).toNat = 2 * n) := by
  unfold parseCode at h
  repeat' split at h
  all_goals simp_all

/-- A frame that passes the length check has at least five bytes (R214). -/
theorem five_le_of_lengthOk {f : Byte} {b : Nat → Byte} {len n : Nat} (h : lengthOk f b len n = true) : 5 ≤ len := by
  unfold lengthOk at h
  repeat' split at h
  all_goals simp at h
  all_goals omega

/-- A read response that parses well has at least 5 + 2N bytes (R204). -/
theorem rhr_length {b : Nat → Byte} {len n : Nat} {slave : Byte}
    (h : parseCode fcReadHolding b len n slave = .none) : 5 + 2 * n ≤ len := by
  have hp := parseCode_eq_none h
  have hl := hp.1
  unfold lengthOk at hl
  rw [if_neg] at hl
  · rw [if_pos rfl, decide_eq_true_eq] at hl
    exact hl
  · rintro ⟨_, hb⟩
    rw [hp.2.2.2.1] at hb
    exact absurd hb (by decide)

/-- The parser's answer depends on the bytes below RX_LEN only (R200). -/
theorem parseCode_congr (f : Byte) (n : Nat) (slave : Byte) {b b' : Nat → Byte} {len : Nat}
    (h : ∀ i, i < len → b' i = b i) : parseCode f b' len n slave = parseCode f b len n slave := by
  have hlo : lengthOk f b' len n = lengthOk f b len n := by
    unfold lengthOk
    by_cases h2 : 2 ≤ len
    · rw [h 1 (by omega)]
    · simp [h2]
  cases hl : lengthOk f b len n with
  | false => simp [parseCode, hl, hlo]
  | true =>
    have h5 := five_le_of_lengthOk hl
    have hm : (List.range (len - 2)).map b' = (List.range (len - 2)).map b :=
      List.map_congr_left fun i hi => h i (by have := List.mem_range.1 hi; omega)
    unfold parseCode
    rw [hlo, h 0 (by omega), h 1 (by omega), h 2 (by omega), h (len - 1) (by omega), h (len - 2) (by omega), hm]

/-- The CRC of a sequence goes on from that of its beginning (R151). -/
theorem crc16_append (a b : List Byte) : crc16 (a ++ b) = b.foldl crcStep (crc16 a) := by
  simp [crc16]

theorem crc16_concat (a : List Byte) (x : Byte) : crc16 (a ++ [x]) = crcStep (crc16 a) x := by
  simp [crc16_append]

theorem State.rxPrefix_succ (s : State) (n : Nat) : s.rxPrefix (n + 1) = s.rxPrefix n ++ [s.rxByte n] := by
  simp [State.rxPrefix, List.range_succ]

theorem State.rxPrefix_length (s : State) (n : Nat) : (s.rxPrefix n).length = n := by
  simp [State.rxPrefix]

/-- Prefixes agree where the bytes do. -/
theorem State.rxPrefix_congr {s t : State} {n : Nat} (h : ∀ i, i < n → t.rxByte i = s.rxByte i) :
    t.rxPrefix n = s.rxPrefix n := by
  simp only [State.rxPrefix]
  exact List.map_congr_left fun i hi => h i (List.mem_range.1 hi)

end Sys2Proof.Machine
end

