-- ==== Sys2Proof/Laws/Crc.lean ====
section
/-! SUPPORT. Laws of the CRC step (41_crc16.md R150): it is linear, loses nothing of the accumulator, and moves the
accumulator's high byte down when the byte folded in is its low byte. -/

namespace Sys2Proof.Machine

/-- One shift is linear over GF(2). -/
theorem crcShift_xor (a b : Half) : crcShift (a ^^^ b) = crcShift a ^^^ crcShift b := by
  unfold crcShift
  simp only [BitVec.getLsbD_xor, BitVec.ushiftRight_xor_distrib]
  cases a.getLsbD 0 <;> cases b.getLsbD 0 <;> simp
  · ac_rfl
  · ac_rfl
  · rw [show a >>> 1 ^^^ 40961#16 ^^^ (b >>> 1 ^^^ 40961#16) = (a >>> 1 ^^^ b >>> 1) ^^^ (40961#16 ^^^ 40961#16) by ac_rfl]
    simp

theorem repeat_crcShift_xor (n : Nat) (a b : Half) : Nat.repeat crcShift n (a ^^^ b) = Nat.repeat crcShift n a ^^^ Nat.repeat crcShift n b := by
  induction n with
  | zero => rfl
  | succ n ih => simp only [Nat.repeat, ih, crcShift_xor]

/-- A step is linear over GF(2) in the accumulator and the byte together (R150). -/
theorem crcStep_xor (a b : Half) (x y : Byte) : crcStep (a ^^^ b) (x ^^^ y) = crcStep a x ^^^ crcStep b y := by
  unfold crcStep
  rw [← repeat_crcShift_xor, BitVec.setWidth_xor]
  congr 1
  ac_rfl

/-- Only 0 shifts to 0. -/
theorem crcShift_eq_zero {x : Half} (h : crcShift x = 0) : x = 0 := by
  have hx := x.isLt
  unfold crcShift at h
  cases hb : x.getLsbD 0 <;> simp only [hb] at h
  · have h1 := congrArg BitVec.toNat h
    simp [Nat.shiftRight_eq_div_pow] at h1
    have : x.toNat % 2 = 0 := by
      rw [← BitVec.testBit_toNat, Nat.testBit_zero] at hb
      simpa using hb
    apply BitVec.eq_of_toNat_eq
    simp; omega
  · exfalso
    have h1 : (x >>> 1) = 0xA001#16 := by
      have := congrArg (· ^^^ 0xA001#16) h
      simpa [BitVec.xor_assoc] using this
    have := congrArg BitVec.toNat h1
    simp [Nat.shiftRight_eq_div_pow] at this
    omega

theorem repeat_crcShift_eq_zero {n : Nat} {x : Half} (h : Nat.repeat crcShift n x = 0) : x = 0 := by
  induction n with
  | zero => exact h
  | succ n ih => exact ih (crcShift_eq_zero h)

theorem eq_of_xor_eq_zero {w} {a b : BitVec w} (h : a ^^^ b = 0) : a = b := by
  have := congrArg (· ^^^ b) h
  simpa [BitVec.xor_assoc] using this

/-- A step loses nothing of the accumulator. -/
theorem crcStep_inj {a b : Half} {x : Byte} (h : crcStep a x = crcStep b x) : a = b := by
  have h1 : crcStep (a ^^^ b) (x ^^^ x) = 0 := by rw [crcStep_xor, h]; simp
  have := repeat_crcShift_eq_zero h1
  apply eq_of_xor_eq_zero
  simpa using this

/-- Shifts of a value with enough low zeros just divide. -/
theorem repeat_crcShift_of_mul (k v : Nat) (c : Half) (h : c.toNat = v * 2 ^ k) : (Nat.repeat crcShift k c).toNat = v := by
  induction k generalizing v c with
  | zero => simpa [Nat.repeat] using h
  | succ k ih =>
    have h1 := ih (2 * v) c (by rw [h, Nat.pow_succ]; ring)
    simp only [Nat.repeat]
    generalize Nat.repeat crcShift k c = d at h1
    have hb : d.getLsbD 0 = false := by
      rw [← BitVec.testBit_toNat, Nat.testBit_zero, h1]; simp
    unfold crcShift
    rw [hb]
    simp [Nat.shiftRight_eq_div_pow, h1]

/-- Folding in the low byte moves the high byte down (95_test_vectors.md, note on V-PAR-28). -/
theorem crcStep_lo8 (c : Half) : crcStep c (lo8 c) = (hi8 c).setWidth 16 := by
  have hc := c.isLt
  apply BitVec.eq_of_toNat_eq
  unfold crcStep
  rw [repeat_crcShift_of_mul 8 (c.toNat / 256)]
  · simp [hi8_toNat]; omega
  · have : c ^^^ (lo8 c).setWidth 16 = c &&& 0xFF00#16 := by
      ext i hi
      simp [lo8]
      interval_cases i <;> simp
    rw [this]
    have h2 : c &&& 0xFF00#16 = (c >>> 8) <<< 8 := by
      ext i hi
      simp
      interval_cases i <;> simp
    rw [h2]
    simp [Nat.shiftRight_eq_div_pow, Nat.shiftLeft_eq]
    omega

/-- Folding in what is left gives 0. -/
theorem crcStep_self (c : Byte) : crcStep (c.setWidth 16) c = 0 := by
  unfold crcStep
  simp
  rfl

end Sys2Proof.Machine
end

