-- ==== Sys2Proof/Laws/Builder.lean ====
section
/-! SUPPORT. Laws of the frame builder: the lengths of the requests, the condition of BUILD.WMR, and what emitting a
frame does to the buffers and the registers. -/

namespace Sys2Proof.Machine

/-- A 0x03 or 0x06 request without its CRC has 6 bytes (R100, R101). -/
@[simp] theorem shortRequest_length (s f : Byte) (a v : Half) : (shortRequest s f a v).length = 6 := by
  simp [shortRequest, wireHalf]

/-- A 0x10 request of K values without its CRC has 7 + 2K bytes (R102). -/
@[simp] theorem multiRequest_length (s : Byte) (a n : Half) (q : List Half) :
    (multiRequest s a n q).length = 7 + 2 * q.length := by
  simp [multiRequest, shortRequest, wireHalf]
  omega

@[simp] theorem appendCrc_length (body : List Byte) : (appendCrc body).length = body.length + 2 := by
  simp [appendCrc]

/-- The byte count of a 0x10 request is 2 * N, cut to 8 bits (R102). -/
theorem lo8_double (n : Half) : lo8 (2 * n) = BitVec.ofNat 8 (2 * n.toNat) := by
  apply BitVec.eq_of_toNat_eq
  rw [lo8_toNat]
  simp

/-- The condition of BUILD.WMR (R176). -/
theorem wmrOk_iff (s : State) :
    wmrOk s = true ↔ s.wovf = false ∧ s.arg1.toNat = s.fifo.length ∧ 1 ≤ s.arg1.toNat := by
  simp [wmrOk, and_assoc]

/-- Emitting a frame changes no byte outside the frame (R171). -/
theorem State.byteAt_emit_of_outside (s : State) {body : List Byte} {a : Nat}
    (h : a < 0x100 ∨ 0x100 + body.length + 2 ≤ a) : (s.emit body).byteAt a = s.byteAt a := by
  rw [State.byteAt_emit, if_pos]
  simp only [appendCrc_length, Reg.txbuf]
  omega

/-- What emitting a frame does to the registers (R170). -/
theorem State.registers_emit (s : State) (body : List Byte) :
    { s.emit body with mem := s.mem } = { s with
      txLen := BitVec.ofNat 9 (body.length + 2), errCode := .none, errExc := 0, res0 := crc16 body, res1 := 0,
      busy := false, done := true, pend := none } := by
  simp [State.emit, State.complete]

/-- Byte `i` of an emitted frame. -/
theorem State.txByte_emit (s : State) {body : List Byte} {i : Nat} (h : i < body.length + 2) :
    (s.emit body).txByte i = (appendCrc body).getD i 0 := by
  unfold State.txByte
  rw [State.byteAt_emit, if_neg (by simp only [appendCrc_length]; omega), Nat.add_sub_cancel_left]

end Sys2Proof.Machine
end

