-- ==== Sys2Proof/Laws/Step.lean ====
section
/-! SUPPORT. Laws of `exec` and `step`: what each can answer, said once. -/

namespace Sys2Proof.Machine

/-! ## The answers of `exec` -/

/-- Every instruction but the BusError access answers a next state. -/
theorem exec_completes {i : Instr} (h : ∀ a, i ≠ .busError a) (s : State) : ∃ t, exec i s = .next t := by
  cases i with
  | busError a => exact absurd rfl (h a)
  | _ => exact ⟨_, rfl⟩

/-- No instruction is refused. -/
theorem exec_ne_refused (i : Instr) (s : State) (r : Refusal) : exec i s ≠ .refused r := by
  cases i <;> exact fun h => nomatch h

/-- Only the BusError access faults, with its own access (R245). -/
theorem exec_eq_fault {i : Instr} {s : State} {f : Fault} (h : exec i s = .fault f) :
    ∃ a, i = .busError a ∧ f = .busError a := by
  cases i with
  | busError a =>
    simp only [exec, execBusError, Host.Outcome.fault.injEq] at h
    exact ⟨a, rfl, h.symm⟩
  | _ => exact nomatch h

/-- What the Engine's step leaves: one of the ends a command can have (R126, R128, R170, R178, R216). -/
theorem exec_command_cases {w : Word} {s t : State} (h : exec (decodeCommand w) s = .next t) :
    (∃ code exc r0 r1, t = s.complete code exc r0 r1 ∧ (code ≠ .deviceException → exc = 0) ∧
      (code ≠ .none → r0 = 0 ∧ r1 = 0)) ∨
    (w = 0x00000303#32 ∧ s.arg1 ≠ 0 ∧ t = s.emit (shortRequest s.slave fcReadHolding s.arg0 s.arg1)) ∨
    (w = 0x00000303#32 ∧ s.arg1 = 0 ∧ t = s.buildFail) ∨
    (w = 0x00000603#32 ∧ t = s.emit (shortRequest s.slave fcWriteSingle s.arg0 s.arg1)) ∨
    (w = 0x00001003#32 ∧ wmrOk s = true ∧ t = s.clearFifo.emit (multiRequest s.slave s.arg0 s.arg1 s.fifo)) ∨
    (w = 0x00001003#32 ∧ wmrOk s = false ∧ t = s.clearFifo.buildFail) ∨
    (w = 0x00000304#32 ∧ parseCode fcReadHolding s.rxByte s.rxLen.toNat s.arg1.toNat s.slave = .none ∧
      t = s.readSuccess) ∨
    (w = 0x00000005#32 ∧ t = s.clearFifo.complete .none 0 0 0) := by
  have parse_end : ∀ (f : Byte) (success : State), t = s.parse f success →
      (parseCode f s.rxByte s.rxLen.toNat s.arg1.toNat s.slave = .none ∧ t = success) ∨
      (∃ code exc r0 r1, t = s.complete code exc r0 r1 ∧ (code ≠ .deviceException → exc = 0) ∧
        (code ≠ .none → r0 = 0 ∧ r1 = 0)) := by
    intro f success ht
    rw [State.parse_eq] at ht
    split at ht
    · exact .inl ⟨‹_›, ht⟩
    · exact .inr ⟨_, _, _, _, ht, fun hc => by simp [hc], fun _ => ⟨rfl, rfl⟩⟩
  rcases decodeCommand_cases w with ⟨rfl, e⟩ | ⟨rfl, e⟩ | ⟨rfl, e⟩ | ⟨rfl, e⟩ | ⟨rfl, e⟩ | ⟨rfl, e⟩ | ⟨rfl, e⟩ | ⟨rfl, e⟩ |
    ⟨rfl, e⟩ | e <;> rw [e] at h <;> simp only [exec] at h
  · simp only [execCrcCompute, Host.Outcome.next.injEq] at h
    exact .inl ⟨_, _, _, _, h.symm, by simp, by simp⟩
  · simp only [execCrcCheck, Host.Outcome.next.injEq] at h
    exact .inl ⟨_, _, _, _, h.symm, by simp, by simp⟩
  · simp only [execBuildRhr, Host.Outcome.next.injEq] at h
    split at h
    · exact .inr (.inr (.inl ⟨rfl, ‹_›, h.symm⟩))
    · exact .inr (.inl ⟨rfl, ‹_›, h.symm⟩)
  · simp only [execBuildWsr, Host.Outcome.next.injEq] at h
    exact .inr (.inr (.inr (.inl ⟨rfl, h.symm⟩)))
  · simp only [execBuildWmr, Host.Outcome.next.injEq] at h
    split at h
    · exact .inr (.inr (.inr (.inr (.inl ⟨rfl, ‹_›, h.symm⟩))))
    · exact .inr (.inr (.inr (.inr (.inr (.inl ⟨rfl, by simp_all, h.symm⟩)))))
  · simp only [execParseRhr, Host.Outcome.next.injEq] at h
    rcases parse_end _ _ h.symm with ⟨hp, ht⟩ | hc
    · exact .inr (.inr (.inr (.inr (.inr (.inr (.inl ⟨rfl, hp, ht⟩))))))
    · exact .inl hc
  · simp only [execParseWsr, Host.Outcome.next.injEq] at h
    rcases parse_end _ _ h.symm with ⟨_, ht⟩ | hc
    · exact .inl ⟨_, _, _, _, ht, by simp, by simp⟩
    · exact .inl hc
  · simp only [execParseWmr, Host.Outcome.next.injEq] at h
    rcases parse_end _ _ h.symm with ⟨_, ht⟩ | hc
    · exact .inl ⟨_, _, _, _, ht, by simp, by simp⟩
    · exact .inl hc
  · simp only [execWfifoClear, Host.Outcome.next.injEq] at h
    exact .inr (.inr (.inr (.inr (.inr (.inr (.inr ⟨rfl, h.symm⟩))))))
  · simp only [execIllegalCommand, Host.Outcome.next.injEq] at h
    exact .inl ⟨_, _, _, _, h.symm, by simp, by simp⟩

/-- What a host access that is carried out leaves (R121, R124, R130). -/
theorem exec_access_cases {a : HostAccess} {s t : State} (h : exec (decodeAccess a) s = .next t) :
    (∃ off, a = .read off .w32 ∧ wordAligned off = true ∧
      ∃ d, t = { s with readData := s.readWord off, draws := d }) ∨
    ∃ off v, a = .write off .w32 v ∧ wordAligned off = true ∧
      ((off = 0x000#12 ∧ v.getLsbD 0 = true ∧ t = s.resetCore) ∨
       (off = 0x000#12 ∧ v.getLsbD 0 = false ∧ t = { s with irqEn := v.getLsbD 1 }) ∨
       (off = 0x004#12 ∧ t = { s with done := clearIf (v.getLsbD 1) s.done, ign := clearIf (v.getLsbD 3) s.ign }) ∨
       (off = 0x008#12 ∧ t = s.unlessBusy (s.accept v)) ∨
       (off = 0x00C#12 ∧ t = s.unlessBusy { s with slave := byteField v }) ∨
       (off = 0x010#12 ∧ t = s.unlessBusy { s with arg0 := halfField v }) ∨
       (off = 0x014#12 ∧ t = s.unlessBusy { s with arg1 := halfField v }) ∨
       (off = 0x01C#12 ∧ t = s.unlessBusy { s with rxLen := rxLenField v }) ∨
       (off = 0x020#12 ∧ t = { s with crcAcc := halfField v }) ∨
       (off = 0x024#12 ∧ t = { s with crcAcc := crcStep s.crcAcc (byteField v) }) ∨
       (off = 0x028#12 ∧ t = s.unlessBusy (s.pushValue (halfField v))) ∨
       (inRxbuf off = true ∧ t = s.unlessBusy (s.storeWord (0x200 + (off.extractLsb' 0 8).toNat) v)) ∨
       (off ∉ writableRegisters ∧ inRxbuf off = false ∧ t = s)) := by
  cases hl : a.legal with
  | false =>
    rw [decodeAccess_illegal hl] at h
    exact nomatch h
  | true =>
    cases a with
    | read off width =>
      obtain ⟨rfl, ha⟩ := (HostAccess.legal_read off width).1 hl
      have ha := (wordAligned_iff off).2 ha
      rw [decodeAccess_read ha] at h
      simp only [exec, execRdName, Host.Outcome.next.injEq] at h
      exact .inl ⟨off, rfl, ha, _, h.symm⟩
    | write off width v =>
      obtain ⟨rfl, ha⟩ := (HostAccess.legal_write off width v).1 hl
      have ha := (wordAligned_iff off).2 ha
      rw [decodeAccess_write v ha] at h
      refine .inr ⟨off, v, rfl, ha, ?_⟩
      rcases decodeWrite_cases off v with ⟨ho, e⟩ | ⟨ho, e⟩ | ⟨ho, e⟩ | ⟨ho, e⟩ | ⟨ho, e⟩ | ⟨ho, e⟩ | ⟨ho, e⟩ | ⟨ho, e⟩ | ⟨ho, e⟩ |
        ⟨ho, e⟩ | ⟨ho, e⟩ | ⟨ho, ho', e⟩ <;> rw [e] at h <;>
        simp only [exec, execWrCtrl, execWrStatus, execWrCmd, execWrSlave, execWrArg0, execWrArg1, execWrRxLen, execWrCrc,
          execFeed, execPush, execWrRxbuf, execWrRoOrReserved, Host.Outcome.next.injEq] at h
      · cases hv : v.getLsbD 0 <;> rw [hv] at h
        · exact .inr (.inl ⟨ho, rfl, h.symm⟩)
        · exact .inl ⟨ho, rfl, h.symm⟩
      all_goals simp_all

/-! ## Steps -/

/-- Everything a step that answers a next state can be. -/
theorem step_cases {s t : State} (h : step s = .next t) :
    (∃ w, s.nextActivity = .run (.command w) ∧ exec (decodeCommand w) s.takeEvent = .next t) ∨
    (∃ a, s.nextActivity = .run (.access a) ∧ exec (decodeAccess a) s.takeEvent = .next t) ∨
    (s.nextActivity = .reset ∧ t = s.takeEvent.resetCore) ∨
    (s.nextActivity = .idle ∧ t = s.takeEvent) := by
  unfold step at h
  split at h
  · rename_i c hc
    cases c with
    | command w => exact .inl ⟨w, hc, h⟩
    | access a => exact .inr (.inl ⟨a, hc, h⟩)
  · exact .inr (.inr (.inl ⟨‹_›, by simpa using h.symm⟩))
  · exact .inr (.inr (.inr ⟨‹_›, by simpa using h.symm⟩))

/-- The Engine takes its pending command, and only while busy (R126). -/
theorem engineActivity_cases (s : State) :
    (∃ w, s.busy = true ∧ s.pend = some w ∧ s.engineActivity = .run (.command w)) ∨
    ((s.busy = false ∨ s.pend = none) ∧ s.engineActivity = .idle) := by
  unfold State.engineActivity State.engineCommand
  cases hb : s.busy <;> cases hp : s.pend <;> simp

/-- A command runs only from PEND, while busy (R126). -/
theorem pending_of_nextActivity {s : State} {w : Word} (h : s.nextActivity = .run (.command w)) :
    s.busy = true ∧ s.pend = some w := by
  have he : s.engineActivity = .run (.command w) → s.busy = true ∧ s.pend = some w := by
    intro h
    rcases engineActivity_cases s with ⟨w', hb, hp, e⟩ | ⟨_, e⟩ <;> rw [e] at h
    · simp only [Activity.run.injEq, Cycle.command.injEq] at h
      exact ⟨hb, h ▸ hp⟩
    · exact absurd h (by simp)
  unfold State.nextActivity at h
  split at h
  · exact he h
  · simp at h
  · exact he h
  · simp at h

/-- An access runs only from the head of the agenda. -/
theorem agenda_of_nextActivity {s : State} {a : HostAccess} (h : s.nextActivity = .run (.access a)) :
    ∃ rest, s.agenda = .access a :: rest := by
  have he : s.engineActivity ≠ .run (.access a) := by
    rcases engineActivity_cases s with ⟨w', _, _, e⟩ | ⟨_, e⟩ <;> simp [e]
  unfold State.nextActivity at h
  split at h
  · exact absurd h he
  · simp only [Activity.run.injEq, Cycle.access.injEq] at h
    subst h
    exact ⟨_, ‹_›⟩
  · exact absurd h he
  · simp at h

theorem nextActivity_access {s : State} {a : HostAccess} {rest : List Event} (h : s.agenda = .access a :: rest) :
    s.nextActivity = .run (.access a) := by simp [State.nextActivity, h]

/-- No step is refused. -/
theorem step_ne_refused (s : State) (r : Refusal) : step s ≠ .refused r := by
  unfold step
  split
  · exact exec_ne_refused _ _ _
  · simp
  · simp

/-- A step takes exactly the first event off the agenda. -/
theorem agenda_of_step {s t : State} (h : step s = .next t) : t.agenda = s.agenda.tail := by
  rcases step_cases h with ⟨w, _, he⟩ | ⟨a, _, he⟩ | ⟨_, rfl⟩ | ⟨_, rfl⟩
  · rcases exec_command_cases he with ⟨_, _, _, _, rfl, _, _⟩ | ⟨_, _, rfl⟩ | ⟨_, _, rfl⟩ | ⟨_, rfl⟩ | ⟨_, _, rfl⟩ |
      ⟨_, _, rfl⟩ | ⟨_, _, rfl⟩ | ⟨_, rfl⟩ <;> simp
  · rcases exec_access_cases he with ⟨_, rfl, _, _, rfl⟩ | ⟨_, v, rfl, _, hc⟩
    · rfl
    · rcases hc with ⟨_, _, rfl⟩ | ⟨_, _, rfl⟩ | ⟨_, rfl⟩ | ⟨_, rfl⟩ | ⟨_, rfl⟩ | ⟨_, rfl⟩ | ⟨_, rfl⟩ | ⟨_, rfl⟩ | ⟨_, rfl⟩ |
        ⟨_, rfl⟩ | ⟨_, rfl⟩ | ⟨_, rfl⟩ | ⟨_, _, rfl⟩
      all_goals simp
  · simp
  · simp

end Sys2Proof.Machine
end

