-- ==== Sys2Proof/Laws/Invariant.lean ====
section
/-! SUPPORT. Laws of the invariant: each shared operation keeps it. -/

namespace Sys2Proof.Machine

/-- Taking an event off the agenda keeps the invariant. -/
theorem State.inv_takeEvent {s : State} (h : s.Inv) : s.takeEvent.Inv := ⟨h.1, h.2, h.3, h.4, h.5, h.6, h.7, h.8, h.9, h.10⟩

/-- A completion keeps the invariant. -/
theorem State.inv_complete {s : State} (h : s.Inv) (code exc r0 r1) (he : code ≠ .deviceException → exc = 0)
   (hr : code ≠ .none → r0 = 0 ∧ r1 = 0) : (s.complete code exc r0 r1).Inv :=
  ⟨h.1, h.2, h.3, h.4, h.5, h.6, rfl, by simp, by simpa using he, by simpa using hr⟩

/-- Emptying Q keeps the invariant. -/
theorem State.inv_clearFifo {s : State} (h : s.Inv) : s.clearFifo.Inv := ⟨h.1, h.2, by simp, by simp, h.5, h.6, h.7, h.8, h.9, h.10⟩

/-- A failed BUILD keeps the invariant. -/
theorem State.inv_buildFail {s : State} (h : s.Inv) : s.buildFail.Inv :=
  ⟨h.1, h.2, h.3, h.4, h.5, by simp, rfl, by simp, by simp, by simp⟩

/-- Emitting a frame of at most 255 bytes keeps the invariant. -/
theorem State.inv_emit {s : State} (h : s.Inv) (body : List Byte) (hb : body.length ≤ 253) : (s.emit body).Inv := by
  have hl : (appendCrc body).length = body.length + 2 := by simp [appendCrc]
  refine ⟨Memory.writeBytes_wf h.1 _ _, ?_, h.3, h.4, h.5, ?_, rfl, by simp, by simp, by simp⟩
  · intro c hc
    rcases Memory.mem_writeBytes hc with hc | hc
    · simp only [bufferOffset, Bool.or_eq_true, Bool.and_eq_true, decide_eq_true_eq]
      simp only [Reg.txbuf, Config.txCap, hl] at *
      omega
    · exact h.2 c hc
  · simp [hl]; omega

/-- A read response of at most 125 registers keeps the invariant. -/
theorem State.inv_readSuccess {s : State} (h : s.Inv) (hn : s.arg1.toNat ≤ 125) : s.readSuccess.Inv := by
  refine ⟨Memory.writeHalves_wf h.1 _ _, ?_, h.3, h.4, h.5, h.6, rfl, by simp, by simp, by simp⟩
  intro c hc
  rcases Memory.mem_writeHalves hc with hc | hc
  · rw [State.responseValues_length] at hc
    simp only [bufferOffset, Bool.or_eq_true, Bool.and_eq_true, decide_eq_true_eq]
    simp only [Reg.rdata, Config.rdataCap] at *
    omega
  · exact h.2 c hc

/-- After a reset the invariant holds, whatever held before. -/
theorem State.inv_resetCore (s : State) : s.resetCore.Inv := by
  constructor <;> simp [Memory.wf]

/-- A bus word stored in RXBUF keeps the invariant. -/
theorem State.inv_storeWord {s : State} (h : s.Inv) (k : Nat) (hk : k ≤ 252) (v) : (s.storeWord (0x200 + k) v).Inv := by
  refine ⟨Memory.writeBytes_wf h.1 _ _, ?_, h.3, h.4, h.5, h.6, h.7, h.8, h.9, h.10⟩
  intro c hc
  rcases Memory.mem_writeBytes hc with hc | hc
  · simp only [bufferOffset, Bool.or_eq_true, Bool.and_eq_true, decide_eq_true_eq]
    simp only [Reg.rxbuf, Config.rxCap, List.length_cons, List.length_nil] at *
    omega
  · exact h.2 c hc

/-- A write under the busy-write rule keeps the invariant. -/
theorem State.inv_unlessBusy {s s' : State} (h : s.Inv) (h' : s.busy = false → s'.Inv) : (s.unlessBusy s').Inv := by
  rcases s.unlessBusy_cases s' with ⟨_, e⟩ | ⟨hb, e⟩ <;> rw [e]
  · exact ⟨h.1, h.2, h.3, h.4, h.5, h.6, h.7, h.8, h.9, h.10⟩
  · exact h' hb

/-- A push keeps the invariant. -/
theorem State.inv_pushValue {s : State} (h : s.Inv) (x : Half) : (s.pushValue x).Inv := by
  rcases s.pushValue_cases x with ⟨hl, e⟩ | ⟨hl, e⟩ <;> rw [e]
  · exact ⟨h.1, h.2, by simpa using hl, fun hw => by have := h.4 hw; simp only [Config.wfifoDepth] at *; omega,
      h.5, h.6, h.7, h.8, h.9, h.10⟩
  · exact ⟨h.1, h.2, h.3, fun _ => by have := h.3; simp only at *; omega, h.5, h.6, h.7, h.8, h.9, h.10⟩

end Sys2Proof.Machine
end

