-- ==== Sys2Proof/Laws/PerInstr.lean ====
section
/-! SUPPORT. Laws stated for every instruction: OneCycle, the kind of cycle an instruction is offered to the core as. -/

namespace Sys2Proof.Laws

/-- A well-formed instruction is one cycle: a command word, an access the core takes, or, for the BusError alone, an
access it does not take (30_encoding.md R94, R97; 20_memory.md R64). -/
def OneCycle.Statement (i : Instr) : Prop :=
  i.wellFormed = true →
    (∃ w, encode i = .command w) ∨
    (∃ a, encode i = .access a ∧ a.legal = true ∧ ∀ b, i ≠ .busError b) ∨
    (∃ a, encode i = .access a ∧ a.legal = false ∧ i = .busError a)

theorem OneCycle.crcCompute : OneCycle.Statement (.crcCompute) :=
  fun _ => .inl ⟨_, rfl⟩

theorem OneCycle.crcCheck : OneCycle.Statement (.crcCheck) :=
  fun _ => .inl ⟨_, rfl⟩

theorem OneCycle.buildRhr : OneCycle.Statement (.buildRhr) :=
  fun _ => .inl ⟨_, rfl⟩

theorem OneCycle.buildWsr : OneCycle.Statement (.buildWsr) :=
  fun _ => .inl ⟨_, rfl⟩

theorem OneCycle.buildWmr : OneCycle.Statement (.buildWmr) :=
  fun _ => .inl ⟨_, rfl⟩

theorem OneCycle.parseRhr : OneCycle.Statement (.parseRhr) :=
  fun _ => .inl ⟨_, rfl⟩

theorem OneCycle.parseWsr : OneCycle.Statement (.parseWsr) :=
  fun _ => .inl ⟨_, rfl⟩

theorem OneCycle.parseWmr : OneCycle.Statement (.parseWmr) :=
  fun _ => .inl ⟨_, rfl⟩

theorem OneCycle.wfifoClear : OneCycle.Statement (.wfifoClear) :=
  fun _ => .inl ⟨_, rfl⟩

theorem OneCycle.illegalCommand (w : Word) : OneCycle.Statement (.illegalCommand w) :=
  fun _ => .inl ⟨_, rfl⟩

theorem OneCycle.wrCtrl (v : Word) : OneCycle.Statement (.wrCtrl v) :=
  fun _ => .inr (.inl ⟨_, rfl, rfl, by simp⟩)

theorem OneCycle.wrStatus (v : Word) : OneCycle.Statement (.wrStatus v) :=
  fun _ => .inr (.inl ⟨_, rfl, rfl, by simp⟩)

theorem OneCycle.wrCmd (w : Word) : OneCycle.Statement (.wrCmd w) :=
  fun _ => .inr (.inl ⟨_, rfl, rfl, by simp⟩)

theorem OneCycle.wrSlave (v : Word) : OneCycle.Statement (.wrSlave v) :=
  fun _ => .inr (.inl ⟨_, rfl, rfl, by simp⟩)

theorem OneCycle.wrArg0 (v : Word) : OneCycle.Statement (.wrArg0 v) :=
  fun _ => .inr (.inl ⟨_, rfl, rfl, by simp⟩)

theorem OneCycle.wrArg1 (v : Word) : OneCycle.Statement (.wrArg1 v) :=
  fun _ => .inr (.inl ⟨_, rfl, rfl, by simp⟩)

theorem OneCycle.wrRxLen (v : Word) : OneCycle.Statement (.wrRxLen v) :=
  fun _ => .inr (.inl ⟨_, rfl, rfl, by simp⟩)

theorem OneCycle.wrCrc (v : Word) : OneCycle.Statement (.wrCrc v) :=
  fun _ => .inr (.inl ⟨_, rfl, rfl, by simp⟩)

theorem OneCycle.feed (v : Word) : OneCycle.Statement (.feed v) :=
  fun _ => .inr (.inl ⟨_, rfl, rfl, by simp⟩)

theorem OneCycle.push (v : Word) : OneCycle.Statement (.push v) :=
  fun _ => .inr (.inl ⟨_, rfl, rfl, by simp⟩)

theorem OneCycle.wrRxbuf (k : Byte) (v : Word) : OneCycle.Statement (.wrRxbuf k v) := by
  intro h
  refine .inr (.inl ⟨_, rfl, ?_, by simp⟩)
  have hk : (rxbufOffset k).extractLsb' 0 2 = k.extractLsb' 0 2 := by
    apply BitVec.eq_of_toNat_eq
    rw [BitVec.extractLsb'_toNat, BitVec.extractLsb'_toNat, Machine.rxbufOffset_toNat]
    simp
    omega
  simpa [wr, HostAccess.legal, wordAligned, hk, Instr.wellFormed] using h

theorem OneCycle.wrRoOrReserved (off : Offset) (v : Word) : OneCycle.Statement (.wrRoOrReserved off v) := by
  intro h
  simp only [Instr.wellFormed, Bool.and_eq_true] at h
  exact .inr (.inl ⟨_, rfl, by simp [wr, HostAccess.legal, h.1.1], by simp⟩)

theorem OneCycle.rdName (off : Offset) : OneCycle.Statement (.rdName off) := by
  intro h
  exact .inr (.inl ⟨_, rfl, by simpa [rd, HostAccess.legal, Instr.wellFormed] using h, by simp⟩)

theorem OneCycle.busError (a : HostAccess) : OneCycle.Statement (.busError a) :=
  fun h => .inr (.inr ⟨a, rfl, by simpa [Instr.wellFormed] using h, rfl⟩)

end Sys2Proof.Laws
end

