-- ==== Sys2Proof/Laws/Reads.lean ====
section
/-! SUPPORT. Laws of host reads: which value an offset gives, idle and busy (40_command_interface.md R125, R130). -/

namespace Sys2Proof.Machine

/-- The offsets of the result state (R42, R125). -/
theorem isResultState_iff (off : Offset) :
    isResultState off = true ↔ off ∈ [0x018#12, 0x02C#12, 0x030#12, 0x034#12] ∨
      (0x100 ≤ off.toNat ∧ off.toNat ≤ 0x1FF) ∨ (0x300 ≤ off.toNat ∧ off.toNat ≤ 0x3F3) := by
  simp only [isResultState, Bool.or_eq_true, beq_iff_eq, inTxbuf_iff, inRdata_iff, List.mem_cons, List.not_mem_nil, or_false]
  tauto

/-- An offset above the registers is none of them. -/
theorem register_ne {off r : Offset} (hr : r.toNat < 0x100) (h : 0x100 ≤ off.toNat) : off ≠ r := by
  rintro rfl
  omega

/-- The value held above the registers (R130). -/
theorem State.exactWord_of_high (s : State) {off : Offset} (h : 0x100 ≤ off.toNat) :
    s.exactWord off =
      if inTxbuf off || inRxbuf off then s.wordAt off.toNat
      else if inRdata off then (s.rdata ((off.toNat - Reg.rdata) / 4)).setWidth 32
      else 0 := by
  have ne : ∀ r : Offset, r.toNat < 0x100 → off ≠ r := fun r hr => register_ne hr h
  unfold State.exactWord
  rw [if_neg (ne Reg.ctrl (by decide)), if_neg (ne Reg.status (by decide)), if_neg (ne Reg.slave (by decide)),
    if_neg (ne Reg.arg0 (by decide)), if_neg (ne Reg.arg1 (by decide)), if_neg (ne Reg.txLen (by decide)),
    if_neg (ne Reg.rxLen (by decide)), if_neg (ne Reg.crc (by decide)), if_neg (ne Reg.err (by decide)),
    if_neg (ne Reg.result0 (by decide)), if_neg (ne Reg.result1 (by decide))]

/-- A word of TXBUF or RXBUF (R65). -/
theorem State.exactWord_buffer (s : State) {off : Offset} (h : 0x100 ≤ off.toNat ∧ off.toNat ≤ 0x2FF) :
    s.exactWord off = s.wordAt off.toNat := by
  have hb : inTxbuf off = true ∨ inRxbuf off = true := by
    rw [inTxbuf_iff, inRxbuf_iff]
    omega
  rw [State.exactWord_of_high s h.1, if_pos (by simpa using hb)]

/-- An entry of RDATA (R39, R130). -/
theorem State.exactWord_rdata (s : State) {off : Offset} (h : 0x300 ≤ off.toNat ∧ off.toNat ≤ 0x3F3) :
    s.exactWord off = (s.rdata ((off.toNat - 0x300) / 4)).setWidth 32 := by
  have hb : ¬ (inTxbuf off || inRxbuf off) = true := by
    rw [Bool.or_eq_true, inTxbuf_iff, inRxbuf_iff]
    omega
  rw [State.exactWord_of_high s (by omega), if_neg hb, if_pos ((inRdata_iff off).2 h)]

/-- A reserved offset holds 0 (R61, R130). -/
theorem State.exactWord_reserved (s : State) {off : Offset}
    (h : (0x038 ≤ off.toNat ∧ off.toNat ≤ 0x0FF) ∨ 0x3F4 ≤ off.toNat) : s.exactWord off = 0 := by
  have ne : ∀ r : Offset, r.toNat < 0x038 → off ≠ r := by
    rintro r hr rfl
    omega
  have hb : ¬ (inTxbuf off || inRxbuf off) = true := by
    rw [Bool.or_eq_true, inTxbuf_iff, inRxbuf_iff]
    omega
  have hd : ¬ inRdata off = true := by
    rw [inRdata_iff]
    omega
  unfold State.exactWord
  rw [if_neg (ne Reg.ctrl (by decide)), if_neg (ne Reg.status (by decide)), if_neg (ne Reg.slave (by decide)),
    if_neg (ne Reg.arg0 (by decide)), if_neg (ne Reg.arg1 (by decide)), if_neg (ne Reg.txLen (by decide)),
    if_neg (ne Reg.rxLen (by decide)), if_neg (ne Reg.crc (by decide)), if_neg (ne Reg.err (by decide)),
    if_neg (ne Reg.result0 (by decide)), if_neg (ne Reg.result1 (by decide)), if_neg hb, if_neg hd]

/-- Idle, a read returns the value held (R130). -/
theorem State.readWord_of_idle (s : State) (off : Offset) (h : s.busy = false) : s.readWord off = s.exactWord off := by
  simp [State.readWord, h]

/-- Busy, a read of the result state returns a draw (R125). -/
theorem State.readWord_of_result (s : State) {off : Offset} (h : s.busy = true) (hr : isResultState off = true) :
    s.readWord off = Config.freeWord s.draws := by
  simp [State.readWord, h, hr]

/-- Any read of an offset that is neither result state nor STATUS returns the value held (R125). -/
theorem State.readWord_of_other (s : State) {off : Offset} (hr : isResultState off = false) (hs : off ≠ 0x004#12) :
    s.readWord off = s.exactWord off := by
  simp [State.readWord, hr, hs]

/-- Lane `i` of a buffer word is its byte `i` (R65). -/
theorem State.lane_wordAt (s : State) (a i : Nat) (h : i < 4) :
    (s.wordAt a).toNat / 256 ^ i % 256 = (s.byteAt (a + i)).toNat := by
  rw [← lane_toNat]
  have hl := lane_packLanes (s.byteAt a) (s.byteAt (a + 1)) (s.byteAt (a + 2)) (s.byteAt (a + 3))
  unfold State.wordAt
  interval_cases i
  · rw [hl.1]; rfl
  · rw [hl.2.1]
  · rw [hl.2.2.1]
  · rw [hl.2.2.2]

/-! ## The composed words as numbers -/

theorem append_toNat {n m : Nat} (x : BitVec n) (y : BitVec m) : (x ++ y).toNat = 2 ^ m * x.toNat + y.toNat := by
  rw [BitVec.toNat_append, ← Nat.shiftLeft_add_eq_or_of_lt y.isLt, Nat.shiftLeft_eq, Nat.mul_comm]

/-- The STATUS word: its flags at their places and WCNT in bits 15:8 (R25). -/
theorem State.statusWord_toNat (s : State) :
    s.statusWord.toNat = s.busy.toNat + 2 * s.done.toNat + 4 * s.errFlag.toNat + 8 * s.ign.toNat + 16 * s.wovf.toNat +
      256 * (s.fifo.length % 256) := by
  simp only [State.statusWord, append_toNat, State.wcnt, BitVec.toNat_ofBool, BitVec.toNat_ofNat]
  omega

/-- The bits of STATUS that are exact while busy, and those that always read 0 (R25, R125). -/
theorem State.statusWord_bits_of_busy (s : State) (hb : s.busy = true) (hd : s.done = false) :
    s.statusWord.getLsbD 0 = true ∧ s.statusWord.getLsbD 1 = false ∧ s.statusWord.getLsbD 3 = s.ign ∧
      ∀ i, ((5 ≤ i ∧ i ≤ 7) ∨ 16 ≤ i) → s.statusWord.getLsbD i = false := by
  simp only [← BitVec.testBit_toNat, s.statusWord_toNat, hb, hd, Nat.testBit_eq_decide_div_mod_eq]
  have hl : s.fifo.length % 256 < 256 := Nat.mod_lt _ (by norm_num)
  refine ⟨?_, ?_, ?_, fun i h => ?_⟩
  · cases s.errFlag <;> cases s.ign <;> cases s.wovf <;> simp <;> omega
  · cases s.errFlag <;> cases s.ign <;> cases s.wovf <;> simp <;> omega
  · cases s.errFlag <;> cases s.ign <;> cases s.wovf <;> simp <;> omega
  · rcases h with ⟨h1, h2⟩ | h
    · interval_cases i <;> cases s.errFlag <;> cases s.ign <;> cases s.wovf <;> simp <;> omega
    · have : 2 ^ 16 ≤ 2 ^ i := Nat.pow_le_pow_right (by norm_num) h
      rw [Nat.div_eq_of_lt]
      · rfl
      · cases s.errFlag <;> cases s.ign <;> cases s.wovf <;> simp <;> omega

/-- The CTRL word (R24). -/
theorem State.ctrlWord_toNat (s : State) : s.ctrlWord.toNat = 2 * s.irqEn.toNat := by
  simp only [State.ctrlWord, append_toNat, BitVec.toNat_ofBool, BitVec.toNat_ofNat]
  omega

/-- The ERR word (R33). -/
theorem State.errWord_toNat (s : State) : s.errWord.toNat = s.errCode.bits.toNat + 256 * s.errExc.toNat := by
  simp only [State.errWord, append_toNat, BitVec.toNat_ofNat]
  omega

/-- STATUS.ERR is set exactly when the code is not 0 (R25). -/
theorem State.errFlag_eq (s : State) : s.errFlag = true ↔ s.errCode ≠ .none := by
  unfold State.errFlag
  cases s.errCode <;> decide

/-! ## The interrupt line and the words of `rxbytes` -/

/-- `irq` goes to the one input that IRQ_LINE names (R252). -/
theorem irqRoutedTo_iff (controller number : Nat) :
    irqRoutedTo controller number = true ↔
      controller = Config.irqLine.controller ∧ number = Config.irqLine.number := by
  simp [irqRoutedTo]

/-- The offset of word `j` of RXBUF, and of the words that would follow it inside the window (R98). -/
theorem rxWordOffset_toNat {j : Nat} (h : j < 896) : (rxWordOffset j).toNat = 0x200 + 4 * j := by
  simp only [rxWordOffset, BitVec.toNat_ofNat, Reg.rxbuf]
  omega

end Sys2Proof.Machine
end

