-- ==== Sys2Proof/Tests/Slice0.lean ====
section
/-! SUPPORT. Tests on fixed values, their expected results from spec/95_test_vectors.md (V-..., T-SRC-...) and from the
examples of the rules, and for every statement with hypotheses a witness that meets them. -/

namespace Sys2Proof.Tests

open Sys2Proof Sys2Proof.Machine

/-! ## Helpers -/

/-- A part of the state an instruction ends in, if it answers one. -/
def part {α : Type} (f : State → α) (i : Instr) (s : State) : Option α :=
  match exec i s with
  | .next t => some (f t)
  | .fault _ => none
  | .refused _ => none

/-- An idle core with received bytes, a slave address and ARG1. -/
def received (bytes : List Byte) (slave : Byte) (n : Half) : State :=
  { State.reset with
    mem := Memory.writeBytes [] 0x200 bytes, rxLen := BitVec.ofNat 9 bytes.length, slave := slave, arg1 := n }

/-- An idle core with the operands of a BUILD. -/
def operands (slave : Byte) (a n : Half) (q : List Half) : State :=
  { State.reset with slave := slave, arg0 := a, arg1 := n, fifo := q }

/-- A core with a pending command. -/
def pending (w : Word) : State := { State.reset with busy := true, pend := some w }

/-- What a completion shows: ERR, RESULT0, RESULT1, STATUS. -/
def results (s : State) : Word × Half × Half × Word := (s.errWord, s.res0, s.res1, s.statusWord)

/-- The response of T-SRC-3 (three registers). -/
def response : List Byte := [0x11, 0x03, 0x06, 0x01, 0xF4, 0x04, 0xB0, 0x00, 0x01, 0x9D, 0xA6]

/-! ## WellFormed refuses ill-formed terms -/

theorem test_wf_illegal_command : (Instr.illegalCommand 0x00000303).wellFormed = false := by decide
theorem test_wf_rxbuf_alignment : (Instr.wrRxbuf 0x01 0).wellFormed = false := by decide
theorem test_wf_reserved_alignment : (Instr.wrRoOrReserved 0x019 0).wellFormed = false := by decide
theorem test_wf_reserved_register : (Instr.wrRoOrReserved 0x000 0).wellFormed = false := by decide
theorem test_wf_reserved_rxbuf : (Instr.wrRoOrReserved 0x2FC 0).wellFormed = false := by decide
theorem test_wf_read_alignment : (Instr.rdName 0x002).wellFormed = false := by decide
theorem test_wf_bus_error : (Instr.busError (.read 0x004 .w32)).wellFormed = false := by decide

/-! ## Decoding words written out from 30_encoding.md R94 (RSV1, FC, RSV0, OP) and 10_state.md R23 -/

theorem test_decode_crc_compute : decode (.command 0b0000000000000000_00000000_0000_0001#32) = .crcCompute := by decide
theorem test_decode_crc_check : decode (.command 0b0000000000000000_00000000_0000_0010#32) = .crcCheck := by decide
theorem test_decode_build_rhr : decode (.command 0b0000000000000000_00000011_0000_0011#32) = .buildRhr := by decide
theorem test_decode_build_wsr : decode (.command 0b0000000000000000_00000110_0000_0011#32) = .buildWsr := by decide
theorem test_decode_build_wmr : decode (.command 0b0000000000000000_00010000_0000_0011#32) = .buildWmr := by decide
theorem test_decode_parse_rhr : decode (.command 0b0000000000000000_00000011_0000_0100#32) = .parseRhr := by decide
theorem test_decode_parse_wsr : decode (.command 0b0000000000000000_00000110_0000_0100#32) = .parseWsr := by decide
theorem test_decode_parse_wmr : decode (.command 0b0000000000000000_00010000_0000_0100#32) = .parseWmr := by decide
theorem test_decode_wfifo_clear : decode (.command 0b0000000000000000_00000000_0000_0101#32) = .wfifoClear := by decide
/-- The illegal words of V-CMD-1. -/
theorem test_decode_illegal :
    [0x00000000#32, 0x00000006#32, 0x0000000F#32, 0x00000101#32, 0x00000203#32, 0x00000313#32, 0x00010303#32,
      0x80000001#32, 0x00000104#32, 0x00000503#32].all (fun w => decode (.command w) == .illegalCommand w) = true := by
  decide
theorem test_decode_wr_ctrl : decode (.access (.write 0x000 .w32 2)) = .wrCtrl 2 := by decide
theorem test_decode_wr_status : decode (.access (.write 0x004 .w32 0xA)) = .wrStatus 0xA := by decide
theorem test_decode_wr_cmd : decode (.access (.write 0x008 .w32 0x603)) = .wrCmd 0x603 := by decide
theorem test_decode_wr_slave : decode (.access (.write 0x00C .w32 0x11)) = .wrSlave 0x11 := by decide
theorem test_decode_wr_arg0 : decode (.access (.write 0x010 .w32 3)) = .wrArg0 3 := by decide
theorem test_decode_wr_arg1 : decode (.access (.write 0x014 .w32 3)) = .wrArg1 3 := by decide
theorem test_decode_wr_rx_len : decode (.access (.write 0x01C .w32 8)) = .wrRxLen 8 := by decide
theorem test_decode_wr_crc : decode (.access (.write 0x020 .w32 0xFFFF)) = .wrCrc 0xFFFF := by decide
theorem test_decode_feed : decode (.access (.write 0x024 .w32 0x11)) = .feed 0x11 := by decide
theorem test_decode_push : decode (.access (.write 0x028 .w32 7)) = .push 7 := by decide
theorem test_decode_wr_rxbuf :
    decode (.access (.write 0x200 .w32 7)) = .wrRxbuf 0x00 7 ∧ decode (.access (.write 0x2FC .w32 7)) = .wrRxbuf 0xFC 7 := by
  decide
/-- The read-only and reserved offsets at the ends of their ranges. -/
theorem test_decode_wr_ro_or_reserved :
    ∀ off ∈ [0x018#12, 0x02C#12, 0x030#12, 0x034#12, 0x038#12, 0x0FC#12, 0x100#12, 0x1FC#12, 0x300#12, 0x3F0#12,
      0x3F4#12, 0xFFC#12], decode (.access (.write off .w32 5)) = .wrRoOrReserved off 5 := by decide
theorem test_decode_rd_name : decode (.access (.read 0xFFC .w32)) = .rdName 0xFFC := by decide
/-- The accesses of V-CMD-10. -/
theorem test_decode_bus_error :
    ∀ a ∈ [HostAccess.write 0x002 .w32 1, .write 0x101 .w32 1, .read 0x203 .w32, .read 0x004 .w8, .read 0x004 .w16,
      .write 0x008 .w64 1, .read 0x100 .burst], decode (.access a) = .busError a := by decide

/-! ## The opcode table's numbering -/

theorem test_table_command : decodeTableWord 32 0x00001003 = some .buildWmr := by decide
theorem test_table_write : decodeTableWord 16 0x02C = some (.wrRoOrReserved 0x02C 0) ∧
    decodeTableWord 16 0x028 = some (.push 0) ∧ decodeTableWord 16 0x2FC = some (.wrRxbuf 0xFC 0) := by decide
theorem test_fetch_command : (State.reset.withFetchWord 32 0x303).nextActivity = .run (.command 0x303) := by decide
theorem test_fetch_write : (State.reset.withFetchWord 16 0x020).nextActivity = .run (.access (.write 0x020 .w32 0)) := by
  decide

/-! ## CRC (V-CRC) -/

theorem test_crc_known :
    crc16 [] = 0xFFFF ∧ crc16 [0x00] = 0x40BF ∧ crc16 [0x01] = 0x807E ∧ crc16 [0xFF] = 0x00FF := by decide
theorem test_crc_digits : crc16 [0x31, 0x32, 0x33, 0x34, 0x35, 0x36, 0x37, 0x38, 0x39] = 0x4B37 := by decide +kernel
/-- V-CRC-13. -/
theorem test_crc_compute :
    part results .crcCompute (received [0x11, 0x03, 0x00, 0x00, 0x00, 0x01] 0 0) = some (0, 0x9A86, 0, 2) := by decide +kernel
/-- V-CRC-14. -/
theorem test_crc_check_match :
    part results .crcCheck (received [0x11, 0x03, 0x00, 0x00, 0x00, 0x01] 0 0x9A86) = some (0, 0x9A86, 1, 2) := by decide +kernel
/-- V-CRC-15: the bytes swapped. -/
theorem test_crc_check_mismatch :
    part results .crcCheck (received [0x11, 0x03, 0x00, 0x00, 0x00, 0x01] 0 0x869A) = some (0, 0x9A86, 0, 2) := by decide +kernel
/-- V-CRC-20. -/
theorem test_wr_crc : part State.crcAcc (.wrCrc 0x00012345) State.reset = some 0x2345 := by decide
/-- V-CRC-18, V-CRC-21. -/
theorem test_feed : part State.crcAcc (.feed 0x11) State.reset = some 0x4C7F ∧
    part State.crcAcc (.feed 0x00000111) State.reset = some 0x4C7F := by decide
/-- V-CRC-22: while busy. -/
theorem test_feed_busy :
    part (fun s => (s.crcAcc, s.ign)) (.feed 0x11) (pending 0x303) = some (0x4C7F, false) := by decide

/-! ## Builder and FIFO (V-BLD, V-FIF) -/

/-- V-BLD-3. -/
theorem test_build_rhr : part (fun s => (s.frame, results s)) .buildRhr (operands 0x11 0x006B 3 []) =
    some ([0x11, 0x03, 0x00, 0x6B, 0x00, 0x03, 0x76, 0x87], 0, 0x8776, 0, 2) := by decide +kernel
/-- V-BLD-6. -/
theorem test_build_rhr_zero :
    part (fun s => (s.txLen, results s)) .buildRhr (operands 0x11 0 0 []) = some (0, 7, 0, 0, 6) := by decide
/-- V-BLD-7. -/
theorem test_build_wsr : part (fun s => (s.frame, results s)) .buildWsr (operands 0x11 3 0x01F4 []) =
    some ([0x11, 0x06, 0x00, 0x03, 0x01, 0xF4, 0x7B, 0x4D], 0, 0x4D7B, 0, 2) := by decide +kernel
/-- V-BLD-11. -/
theorem test_build_wmr : part (fun s => (s.frame, results s)) .buildWmr (operands 0x11 3 3 [0x01F4, 0x04B0, 0x0001]) =
    some ([0x11, 0x10, 0x00, 0x03, 0x00, 0x03, 0x06, 0x01, 0xF4, 0x04, 0xB0, 0x00, 0x01, 0x59, 0x0C],
      0, 0x0C59, 0, 2) := by decide +kernel
/-- V-BLD-14: the values are lost. -/
theorem test_build_wmr_mismatch :
    part (fun s => (s.txLen, s.fifo, results s)) .buildWmr (operands 0x11 3 3 [1, 2]) = some (0, [], 7, 0, 0, 6) := by
  decide
/-- V-FIF-5 (five values, WOVF set). -/
theorem test_wfifo_clear : part (fun s => (s.fifo, s.wovf, results s)) .wfifoClear
    { operands 0 0 0 [1, 2, 3, 4, 5] with wovf := true } = some ([], false, 0, 0, 0, 2) := by decide
/-- V-FIF-1. -/
theorem test_push : part (fun s => (s.fifo, s.statusWord)) (.push 0xABCD1234) State.reset = some ([0x1234], 0x100) := by
  decide
/-- V-FIF-3. -/
theorem test_push_full :
    part (fun s => (s.fifo.length, s.statusWord)) (.push 7) (operands 0 0 0 (List.replicate 123 0)) =
      some (123, 0x00007B10) := by decide +kernel

/-! ## Parser (V-PAR) -/

/-- V-PAR-25. -/
theorem test_parse_rhr : part (fun s => (s.rdata 0, s.rdata 1, s.rdata 2, results s)) .parseRhr (received response 0x11 3) =
    some (0x01F4, 0x04B0, 0x0001, 0, 3, 0, 2) := by decide +kernel
/-- V-PAR-28: a trailing 0x00. -/
theorem test_parse_rhr_trailing_zero :
    part results .parseRhr (received (response ++ [0x00]) 0x11 3) = some (0, 3, 0, 2) := by decide +kernel
/-- V-PAR-31. -/
theorem test_parse_wsr :
    part results .parseWsr (received [0x11, 0x06, 0x00, 0x03, 0x01, 0xF4, 0x7B, 0x4D] 0x11 0) =
      some (0, 3, 0x01F4, 2) := by decide +kernel
/-- V-PAR-15: an exception response. -/
theorem test_parse_wsr_exception :
    part results .parseWsr (received [0x11, 0x86, 0x02, 0xC2, 0x64] 0x11 0) = some (0x203, 0, 0, 6) := by decide
/-- V-PAR-33. -/
theorem test_parse_wmr :
    part results .parseWmr (received [0x11, 0x10, 0x00, 0x03, 0x00, 0x03, 0x72, 0x98] 0x11 0) = some (0, 3, 3, 2) := by
  decide +kernel
/-- V-PAR-22: a wrong CRC. -/
theorem test_parse_wmr_crc :
    part results .parseWmr (received [0x11, 0x10, 0x00, 0x03, 0x00, 0x03, 0x72, 0x99] 0x11 0) = some (5, 0, 0, 6) := by
  decide +kernel

/-! ## Host operations (V-CMD, V-RST, V-IRQ) -/

/-- V-CMD-1, one of its words. -/
theorem test_illegal_command : part (fun s => (s.txLen, s.fifo, results s)) (.illegalCommand 0x00000313)
    { operands 0 0 0 [0x1234] with txLen := 8, busy := true } = some (8, [0x1234], 8, 0, 0, 0x106) := by decide
/-- V-RST-1. -/
theorem test_wr_ctrl_srst :
    part (fun s => (s.busy, s.pend, s.irqEn, s.slave, s.crcAcc)) (.wrCtrl 3)
      { pending 0x303 with irqEn := true, slave := 0x11, crcAcc := 0 } = some (false, none, false, 0, 0xFFFF) := by decide
/-- V-IRQ-2: enabling the interrupt while DONE = 1 asserts irq. -/
theorem test_wr_ctrl_irq : part State.irq (.wrCtrl 2) { State.reset with done := true } = some true := by decide
/-- V-CMD-4. -/
theorem test_wr_status : part State.statusWord (.wrStatus 8)
    { State.reset with done := true, ign := true, errCode := .encodingError } = some 6 := by decide
/-- V-CMD-2. -/
theorem test_wr_cmd : part (fun s => (s.busy, s.done, s.pend)) (.wrCmd 0x303) { State.reset with done := true } =
    some (true, false, some 0x303) := by decide
/-- V-CMD-3: dropped while busy. -/
theorem test_wr_cmd_busy : part (fun s => (s.pend, s.ign)) (.wrCmd 0x603) (pending 0x303) = some (some 0x303, true) := by
  decide
/-- V-CMD-7. -/
theorem test_wr_slave : part State.slave (.wrSlave 0x111) State.reset = some 0x11 := by decide
theorem test_wr_arg0 : part State.arg0 (.wrArg0 0x00010005) State.reset = some 5 := by decide
theorem test_wr_arg1 : part State.arg1 (.wrArg1 0x00010005) State.reset = some 5 := by decide
/-- V-CMD-8. -/
theorem test_wr_rx_len :
    [0#32, 0xFF#32, 0x100#32, 0x101#32, 0x1000#32, 0xFFFFFFFF#32].map (fun v => part State.rxLen (.wrRxLen v) State.reset) =
      [some 0, some 255, some 256, some 256, some 256, some 256] := by decide
/-- V-CMD-9. -/
theorem test_wr_rxbuf : part (fun s => (s.rxPrefix 4, s.exactWord 0x200)) (.wrRxbuf 0 0x00000311) State.reset =
    some ([0x11, 0x03, 0x00, 0x00], 0x00000311) := by decide
/-- V-CMD-3: dropped while busy. -/
theorem test_wr_slave_busy : part (fun s => (s.slave, s.ign)) (.wrSlave 0x22) (pending 0x303) = some (0, true) := by decide
/-- V-CMD-11: ignored even while busy. -/
theorem test_wr_reserved : exec (.wrRoOrReserved 0x040 0xFFFFFFFF) (pending 0x303) = .next (pending 0x303) := rfl
/-- The example of R130, and V-CMD-12. -/
theorem test_rd : part State.readData (.rdName 0x020) State.reset = some 0xFFFF ∧
    part State.readData (.rdName 0x024) State.reset = some 0 := by decide
/-- R23, R61 and R130: the window of RDATA ends at 0x3F3, a read of 0x3F4 is reserved, busy or not. -/
theorem test_rd_rdata_end :
    let held := fun s : State => { s with mem := Memory.writeHalves [] 0x3F0 [0x0102, 0x0304] }
    part State.readData (.rdName 0x3F0) (held State.reset) = some 0x0102 ∧
    part State.readData (.rdName 0x3F4) (held State.reset) = some 0 ∧
    part (fun t => (t.readData, t.draws)) (.rdName 0x3F4) (held (pending 0x303)) = some (0, 0) := by decide
/-- V-CMD-5: a draw, whatever it is. -/
theorem test_rd_busy : part (fun s => (s.readData, s.draws)) (.rdName 0x02C) (pending 0x303) =
    some (Config.freeWord 0, 1) := rfl
/-- V-CMD-10. -/
theorem test_bus_error :
    exec (.busError (.write 0x002 .w32 1)) State.reset = .fault (.busError (.write 0x002 .w32 1)) := rfl
/-- D18 and R252: polarity and trigger. -/
theorem test_irq_line :
    lineLevel .activeLow true = false ∧ lineLevel .activeHigh true = true ∧
    requestSeen .level true true = true ∧ requestSeen .edge true true = false ∧
    requestSeen .edge false true = true := by decide
/-- The expansion of R98 for the six bytes of program P3. -/
theorem test_rxbytes : Asm.rxbytes [0x11, 0x03, 0x00, 0x00, 0x00, 0x01] =
    [.write 0x200 .w32 0x00000311, .write 0x204 .w32 0x00000100, .write 0x01C .w32 6] := by decide

/-! ## Witnesses: the hypotheses of the statements can be met -/

/-- A busy core in the invariant, its agenda one read and the Engine. -/
def busyCore : State := { pending 0x00000603 with slave := 0x11, agenda := [.access (.read 0x004 .w32), .engine] }

/-- A core in the invariant with listed bytes in all three buffers. -/
def fullCore : State :=
  { received response 0x11 3 with
    mem := Memory.writeHalves (Memory.writeBytes (Memory.writeBytes [] 0x200 response) 0x100 (List.replicate 8 0x00))
      0x300 [0xFFFF, 0xFFFF, 0xFFFF] }

theorem busyCore_inv : busyCore.Inv := by constructor <;> decide
theorem fullCore_inv : fullCore.Inv := by constructor <;> decide

theorem witness_DecodeOfEncodeIsTheInstruction :
    (Instr.wrRxbuf 0xFC 0xFFFFFFFF).wellFormed = true ∧ (Instr.illegalCommand 0xFFFFFFFF).wellFormed = true ∧
    (Instr.wrRoOrReserved 0x3F4 0).wellFormed = true ∧ (Instr.rdName 0xFFC).wellFormed = true ∧
    (Instr.busError (.read 0xFFF .w32)).wellFormed = true := by decide

theorem witness_StepRunsTheDecodedInstruction :
    (busyCore.agenda = .access (.read 0x004 .w32) :: [.engine] ∧ decode (.access (.read 0x004 .w32)) = .rdName 0x004) ∧
    ((pending 0x603).busy = true ∧ (pending 0x603).pend = some 0x603 ∧ decode (.command 0x603) = .buildWsr ∧
      (pending 0x603).agenda = [] ∧ { pending 0x603 with agenda := [.engine] }.agenda = .engine :: []) ∧
    (State.reset.busy = false ∧ State.reset.agenda = []) ∧
    { State.reset with agenda := [.hardwareReset] }.agenda = .hardwareReset :: [] := by decide

theorem witness_StepKeepsTheInvariant : busyCore.Inv ∧ ∃ t, step busyCore = .next t := ⟨busyCore_inv, _, rfl⟩

theorem witness_StepFaultsExactlyOnBusError :
    step { State.reset with agenda := [.access (.read 0x001 .w32)] } = .fault (.busError (.read 0x001 .w32)) ∧
    step { pending 0x603 with agenda := [.access (.write 0x008 .w16 1)] } = .fault (.busError (.write 0x008 .w16 1)) :=
  ⟨rfl, rfl⟩

theorem witness_LegalAccessesRunForever : busyCore.LegalAgenda := by
  intro a h
  simp only [busyCore, List.mem_cons, Event.access.injEq, List.not_mem_nil, or_false, reduceCtorEq] at h
  subst h
  decide

theorem witness_PendingCommandEndsWithinTheAgenda : busyCore.Inv ∧ busyCore.busy = true ∧ busyCore.LegalAgenda :=
  ⟨busyCore_inv, rfl, witness_LegalAccessesRunForever⟩

theorem witness_OperandsAreThoseOfTheAcceptance :
    let s : State := { State.reset with agenda := [.access (.write 0x00C .w32 0x22)] }
    s.busy = false ∧ exec (.wrCmd 0x603) s = .next (s.accept 0x603) ∧
    ∀ j, j ≤ 1 → ∃ v, run j (s.accept 0x603) = .next v ∧ v.busy = true := by
  refine ⟨rfl, rfl, fun j hj => ?_⟩
  interval_cases j <;> exact ⟨_, rfl, rfl⟩

theorem witness_OnlyCompletionOrResetEndsACommand :
    (∃ t, step (pending 0x603) = .next t ∧ t.busy = false) ∧
    (∃ t, step { pending 0x603 with agenda := [.hardwareReset] } = .next t ∧ t.busy = false) ∧
    (∃ t, step { pending 0x603 with agenda := [.access (.write 0x000 .w32 1)] } = .next t ∧ t.busy = false) :=
  ⟨⟨_, rfl, rfl⟩, ⟨_, rfl, rfl⟩, ⟨_, rfl, rfl⟩⟩

theorem witness_IrqFallsAndRisesOnlyByItsEvents :
    (∃ t, step { State.reset with irqEn := true, done := true, agenda := [.access (.write 0x004 .w32 2)] } = .next t ∧
      t.irq = false) ∧
    (∃ t, step { pending 0x005 with irqEn := true } = .next t ∧ t.irq = true) := ⟨⟨_, rfl, by decide⟩, ⟨_, rfl, by decide⟩⟩

theorem witness_BufferBytesHaveTheirWritersOnly :
    fullCore.Inv ∧
    (∃ t, exec .buildWsr fullCore = .next t ∧ t.byteAt 0x107 ≠ fullCore.byteAt 0x107) ∧
    (∃ t, exec (.wrRxbuf 0x08 0) fullCore = .next t ∧ t.byteAt 0x20A ≠ fullCore.byteAt 0x20A) ∧
    (∃ t, exec .parseRhr fullCore = .next t ∧ t.byteAt 0x309 ≠ fullCore.byteAt 0x309) :=
  ⟨fullCore_inv, ⟨_, rfl, by decide +kernel⟩, ⟨_, rfl, by decide +kernel⟩, ⟨_, rfl, by decide +kernel⟩⟩

theorem witness_FifoChangesOnlyByItsOperations :
    (∃ t, step { State.reset with agenda := [.access (.write 0x028 .w32 7)] } = .next t ∧ t.fifo ≠ []) ∧
    (∃ t, step { pending 0x005 with fifo := [7], wovf := true } = .next t ∧ t.wovf ≠ true) :=
  ⟨⟨_, rfl, by decide⟩, ⟨_, rfl, by decide⟩⟩

theorem witness_CommandsKeepTheOperands : fullCore.Inv ∧ ∃ t, exec (decodeCommand 0x304) fullCore = .next t :=
  ⟨fullCore_inv, _, rfl⟩

/-- Two cores with the same operands that differ in RXBUF at RX_LEN, in RDATA and in the flags. -/
theorem witness_CompletionDependsOnTheOperandsOnly :
    let s₁ := received response 0x11 3
    let s₂ : State := { received (response ++ [0x55]) 0x11 3 with rxLen := 11, ign := true, crcAcc := 0 }
    SameOperands s₁ s₂ ∧ (∃ t, exec (decodeCommand 0x304) s₁ = .next t ∧ t.errCode = .none) ∧
      (∃ t, exec (decodeCommand 0x304) s₂ = .next t) := by
  refine ⟨⟨rfl, rfl, rfl, rfl, by decide +kernel, rfl, rfl⟩, ⟨_, rfl, by decide +kernel⟩, ⟨_, rfl⟩⟩

theorem witness_SingleBitFlipChangesTheCrc : (7 : Nat) < 8 := by decide

theorem witness_CrcIsAffine : ([0x11, 0x03] : List Byte).length = ([0x01, 0x06] : List Byte).length := by decide

theorem witness_CrcCheckPutsTheMatchInResult1 :
    (received [] 0 0xFFFF).arg1 = crc16 ((received [] 0 0xFFFF).rxPrefix (received [] 0 0xFFFF).rxLen.toNat) ∧
    (received [] 0 0).arg1 ≠ crc16 ((received [] 0 0).rxPrefix (received [] 0 0).rxLen.toNat) := by decide

theorem witness_BuildRhrMakesTheReadRequest :
    (operands 0x11 0 0 []).arg1 = 0 ∧ (operands 0x11 0 1 []).arg1 ≠ 0 ∧ (operands 0x11 0 0xFFFF []).arg1 ≠ 0 := by decide

theorem witness_BuildWmrMakesTheMultipleWriteRequest :
    let full := operands 0x11 0 123 (List.replicate 123 0)
    let one := operands 0x11 0 1 [7]
    (full.fifo.length ≤ 123 ∧ full.wovf = false ∧ full.arg1.toNat = full.fifo.length ∧ full.arg1 ≠ 0) ∧
    (one.fifo.length ≤ 123 ∧ one.wovf = false ∧ one.arg1.toNat = one.fifo.length ∧ one.arg1 ≠ 0) ∧
    { full with wovf := true }.wovf = true ∧ (operands 0x11 0 2 [7]).arg1.toNat ≠ (operands 0x11 0 2 [7]).fifo.length ∧
    (operands 0x11 0 0 []).arg1 = 0 := by decide +kernel

theorem witness_BuiltFrameHasZeroResidue :
    (operands 0x11 0 1 [7]).fifo.length ≤ 123 ∧
    (∃ t, exec .buildRhr (operands 0x11 0 1 [7]) = .next t ∧ t.errCode = .none) ∧
    (∃ t, exec .buildWmr (operands 0x11 0 1 [7]) = .next t ∧ t.errCode = .none) :=
  ⟨by decide, ⟨_, rfl, by decide⟩, ⟨_, rfl, by decide⟩⟩

theorem witness_PushAppendsOrSetsOverflow :
    (pending 0x303).busy = true ∧
    ((operands 0 0 0 (List.replicate 122 0)).busy = false ∧ (operands 0 0 0 (List.replicate 122 0)).fifo.length < 123) ∧
    ((operands 0 0 0 (List.replicate 123 0)).busy = false ∧ 123 ≤ (operands 0 0 0 (List.replicate 123 0)).fifo.length) := by
  decide +kernel

/-- One buffer for each clause, from V-PAR-3, 11, 13, 18, 20 and 24. -/
theorem witness_ParseReportsTheFirstFailure :
    (let s := received [0x11] 0x11 0; s.rxLen.toNat < 5 + 2 * s.arg1.toNat ∧ ¬ 2 ≤ s.rxLen.toNat) ∧
    (let s := received response 0x12 3; 5 + 2 * s.arg1.toNat ≤ s.rxLen.toNat ∧ s.rxByte 0 ≠ s.slave) ∧
    (let s := received [0x11, 0x83, 0x02, 0xC1, 0x34] 0x11 3; s.rxLen.toNat = 5 ∧ s.rxByte 0 = s.slave ∧
      s.rxByte 1 ^^^ 0x80 = 0x03) ∧
    (let s := received [0x11, 0x04, 0x06, 0x01, 0xF4, 0x04, 0xB0, 0x00, 0x01, 0xDC, 0x40] 0x11 3;
      5 + 2 * s.arg1.toNat ≤ s.rxLen.toNat ∧ s.rxByte 0 = s.slave ∧ s.rxByte 1 ^^^ 0x80 ≠ 0x03 ∧ s.rxByte 1 ≠ 0x03) ∧
    (let s := received [0x11, 0x03, 0x06, 0x01, 0xF4, 0x04, 0xB0, 0x00, 0x01, 0x9C, 0xA6] 0x11 3;
      5 + 2 * s.arg1.toNat ≤ s.rxLen.toNat ∧ s.rxByte 0 = s.slave ∧ s.rxByte 1 = 0x03 ∧
      s.rxByte 10 ++ s.rxByte 9 ≠ crc16 (s.rxPrefix 9)) ∧
    (let s := received response 0x11 2; 5 + 2 * s.arg1.toNat ≤ s.rxLen.toNat ∧ s.rxByte 0 = s.slave ∧
      s.rxByte 1 = 0x03 ∧ s.rxByte 10 ++ s.rxByte 9 = crc16 (s.rxPrefix 9) ∧ (s.rxByte 2).toNat ≠ 2 * s.arg1.toNat) := by
  decide +kernel

/-- V-PAR-25 and V-PAR-26 (N = 0). -/
theorem witness_ParseRhrReturnsTheRegisters :
    (let s := received response 0x11 3; s.rxLen.toNat ≤ 256 ∧ 5 + 2 * s.arg1.toNat ≤ s.rxLen.toNat ∧
      s.rxByte 0 = s.slave ∧ s.rxByte 1 = 0x03 ∧ s.rxByte 10 ++ s.rxByte 9 = crc16 (s.rxPrefix 9) ∧
      (s.rxByte 2).toNat = 2 * s.arg1.toNat) ∧
    (let s := received [0x11, 0x03, 0x00, 0x21, 0x35] 0x11 0; s.rxLen.toNat ≤ 256 ∧
      5 + 2 * s.arg1.toNat ≤ s.rxLen.toNat ∧ s.rxByte 0 = s.slave ∧ s.rxByte 1 = 0x03 ∧
      s.rxByte 4 ++ s.rxByte 3 = crc16 (s.rxPrefix 3) ∧ (s.rxByte 2).toNat = 2 * s.arg1.toNat) := by decide +kernel

theorem witness_ParseWriteReturnsTheEcho :
    (let s := received [0x11, 0x06, 0x00, 0x03, 0x01, 0xF4, 0x7B, 0x4D] 0x11 0; s.rxLen = 8 ∧ s.rxByte 0 = s.slave ∧
      s.rxByte 1 = 0x06 ∧ s.rxByte 7 ++ s.rxByte 6 = crc16 (s.rxPrefix 6)) ∧
    (let s := received [0x11, 0x10, 0x00, 0x03, 0x00, 0x03, 0x72, 0x98] 0x11 0; s.rxLen = 8 ∧ s.rxByte 0 = s.slave ∧
      s.rxByte 1 = 0x10 ∧ s.rxByte 7 ++ s.rxByte 6 = crc16 (s.rxPrefix 6)) := by decide +kernel

theorem witness_EmptyBufferIsShortFrame :
    (received [] 0x11 3).rxLen.toNat ≤ 1 ∧ (received [0x11] 0x11 0).rxLen.toNat ≤ 1 ∧
    (received [0x11, 0x03, 0x00, 0x00] 0x11 0).rxLen.toNat < 5 := by decide

/-- V-PAR-31 with its last byte changed. -/
theorem witness_CorruptedCrcByteIsReported :
    let s₁ := received [0x11, 0x06, 0x00, 0x03, 0x01, 0xF4, 0x7B, 0x4D] 0x11 0
    let s₂ := received [0x11, 0x06, 0x00, 0x03, 0x01, 0xF4, 0x7B, 0x4C] 0x11 0
    (∃ t, exec .parseWsr s₁ = .next t ∧ t.errCode = .none) ∧
    s₂.slave = s₁.slave ∧ s₂.arg1 = s₁.arg1 ∧ s₂.rxLen = s₁.rxLen ∧ 7 + 1 = s₁.rxLen.toNat ∧
    s₂.rxByte 7 ≠ s₁.rxByte 7 ∧ ∀ k, k < s₁.rxLen.toNat → k ≠ 7 → s₂.rxByte k = s₁.rxByte k :=
  ⟨⟨_, rfl, by decide +kernel⟩, by decide +kernel⟩

theorem witness_TrailingZeroByteIsAccepted :
    let s₁ := received response 0x11 3
    let s₂ := received (response ++ [0x00]) 0x11 3
    (∃ t, exec .parseRhr s₁ = .next t ∧ t.errCode = .none) ∧
    s₂.slave = s₁.slave ∧ s₂.arg1 = s₁.arg1 ∧ s₁.rxLen.toNat < 256 ∧ s₂.rxLen.toNat = s₁.rxLen.toNat + 1 ∧
    (∀ k, k < s₁.rxLen.toNat → s₂.rxByte k = s₁.rxByte k) ∧ s₂.rxByte s₁.rxLen.toNat = 0x00 :=
  ⟨⟨_, rfl, by decide +kernel⟩, by decide +kernel⟩

theorem witness_EchoOfABuiltWriteParses :
    let r := received [0x11, 0x06, 0x00, 0x03, 0x01, 0xF4, 0x7B, 0x4D] 0x11 0
    ∃ t, exec .buildWsr (operands 0x11 3 0x01F4 []) = .next t ∧ r.slave = (operands 0x11 3 0x01F4 []).slave ∧
      r.rxLen = t.txLen ∧ ∀ k, k < t.txLen.toNat → r.rxByte k = t.txByte k :=
  ⟨_, rfl, rfl, by decide +kernel, by decide +kernel⟩

theorem witness_CtrlWriteResetsOrEnablesTheInterrupt :
    (3#32).getLsbD 0 = true ∧ (0xFFFFFFFE#32).getLsbD 0 = false := by decide

theorem witness_ResetLeavesTheResetValues :
    { busyCore with agenda := [.hardwareReset] }.agenda = .hardwareReset :: [] ∧ (1#32).getLsbD 0 = true := by decide

theorem witness_ResetsFreeTheBuffersAndKeepTheOutsideWorld :
    { busyCore with agenda := [.hardwareReset] }.agenda = .hardwareReset :: [] ∧ (1#32).getLsbD 0 = true := by decide

theorem witness_StatusWriteClearsDoneAndIgn :
    (0x2#32).getLsbD 1 = true ∧ (0x2#32).getLsbD 3 = false ∧ (0x8#32).getLsbD 1 = false ∧ (0x8#32).getLsbD 3 = true := by
  decide

theorem witness_CmdWriteIsAcceptedOrDropped : State.reset.busy = false ∧ (pending 0x303).busy = true := by decide

theorem witness_OperandWritesKeepTheirFields :
    State.reset.busy = false ∧ (0x00#8).toNat % 4 = 0 ∧ (0xFC#8).toNat % 4 = 0 := by decide

theorem witness_RxbufWriteThenReadReturnsTheWord : State.reset.busy = false ∧ (0xFC#8).toNat % 4 = 0 := by decide

/-- An offset for each clause: the dropped ones at the ends of RXBUF, the four that take effect, an ignored one. -/
theorem witness_BusyWritesFollowTheirOffset :
    [0x200#12, 0x2FC#12, 0x008#12, 0x00C#12, 0x010#12, 0x014#12, 0x01C#12, 0x028#12, 0x000#12, 0x004#12, 0x020#12, 0x024#12,
      0x1FC#12, 0x300#12].all (fun off =>
        let s : State := { pending 0x303 with agenda := [.access (.write off .w32 7)] }
        s.busy && off.toNat % 4 == 0 && s.agenda == .access (.write off .w32 7) :: []) = true := by decide

theorem witness_RxbytesDeliversTheFrame :
    State.reset.busy = false ∧ (List.replicate 256 (0x55 : Byte)).length ≤ 256 ∧ ([] : List Byte).length ≤ 256 := by
  decide +kernel

theorem witness_CmdWriteBesideACompletionHasBothOrders :
    let before : State := { pending 0x303 with agenda := [.access (.write 0x008 .w32 5), .engine] }
    let after : State := { pending 0x303 with agenda := [.engine, .access (.write 0x008 .w32 5)] }
    (before.busy = true ∧ before.pend = some 0x303 ∧ before.agenda = .access (.write 0x008#12 .w32 5) :: .engine :: []) ∧
    (after.busy = true ∧ after.pend = some 0x303 ∧ after.agenda = .engine :: .access (.write 0x008#12 .w32 5) :: []) := by
  decide

/-- The ends of the ranges; no offset lies in both lists. -/
theorem witness_ReservedAndReadOnlyOffsetsIgnoreWrites :
    (∀ off ∈ [0x038#12, 0x0FC#12, 0x3F4#12, 0x4F0#12, 0x4F4#12, 0xFFC#12], off.toNat % 4 = 0 ∧
      ((0x038 ≤ off.toNat ∧ off.toNat ≤ 0x0FF) ∨ 0x3F4 ≤ off.toNat)) ∧
    (∀ off ∈ [0x018#12, 0x034#12, 0x100#12, 0x1FC#12, 0x300#12, 0x3F0#12], off.toNat % 4 = 0 ∧
      (off ∈ [0x018#12, 0x02C#12, 0x030#12, 0x034#12] ∨ (0x100 ≤ off.toNat ∧ off.toNat ≤ 0x1FF) ∨
          (0x300 ≤ off.toNat ∧ off.toNat ≤ 0x3F3))) := by decide

theorem witness_IdleReadsReturnTheRegisters :
    fullCore.busy = false ∧ fullCore.fifo.length ≤ 123 ∧
    (operands 0 0 0 (List.replicate 123 0)).fifo.length ≤ 123 := by decide +kernel

theorem witness_IdleReadsReturnTheBuffers :
    fullCore.busy = false ∧ ∀ off ∈ [0x100#12, 0x1FC#12, 0x200#12, 0x2FC#12, 0x300#12, 0x3F0#12, 0x3F4#12, 0x4F0#12],
      off.toNat % 4 = 0 := by decide

/-- A result offset, STATUS, and an offset that is exact while busy. -/
theorem witness_BusyReadsDrawTheResultState :
    busyCore.Inv ∧ busyCore.busy = true ∧
      ∀ off ∈ [0x018#12, 0x100#12, 0x1FC#12, 0x300#12, 0x3F0#12, 0x004#12, 0x000#12, 0x200#12, 0x3F4#12,
        0x4F0#12, 0x4F4#12], off.toNat % 4 = 0 := ⟨busyCore_inv, by decide⟩

theorem witness_ReadsHaveNoSideEffect : State.reset.busy = false := by decide

theorem witness_WindowOffsetIsTheLowTwelveBits :
    inWindow Config.coreBase ∧ inWindow (Config.coreBase + 0xFFF) := by
  simp [inWindow]

/-- The STATUS write before the completion and after it. -/
theorem witness_StatusWriteBesideACompletionHasBothOrders :
    let before : State := { pending 0x303 with agenda := [.access (.write 0x004 .w32 2), .engine] }
    let after : State := { pending 0x303 with agenda := [.engine, .access (.write 0x004 .w32 2)] }
    (2#32).getLsbD 1 = true ∧
    (before.busy = true ∧ before.pend = some 0x303 ∧ before.agenda = .access (.write 0x004#12 .w32 2) :: .engine :: []) ∧
    (after.busy = true ∧ after.pend = some 0x303 ∧ after.agenda = .engine :: .access (.write 0x004#12 .w32 2) :: []) := by
  decide

/-- The input IRQ_LINE names, and another. -/
theorem witness_IrqReachesTheLineOfThePlatform :
    (Config.irqLine.controller = Config.irqLine.controller ∧ Config.irqLine.number = Config.irqLine.number) ∧
    ¬(Config.irqLine.controller = Config.irqLine.controller ∧ Config.irqLine.number + 1 = Config.irqLine.number) :=
  ⟨⟨rfl, rfl⟩, by omega⟩

theorem witness_LongRxbytesAreTruncated :
    State.reset.busy = false ∧ 256 < (List.replicate 257 (0x55 : Byte)).length ∧
      (List.replicate 257 (0x55 : Byte)).length < 2 ^ 32 := by
  simp only [List.length_replicate]
  decide

end Sys2Proof.Tests
end

section
/-! PROOFS. The two resets (10_state.md R44; 70_reset_and_hazards.md R270, R271): which operation each one is, and the
values it leaves. -/

namespace Sys2Proof.Machine

theorem State.reset_atResetValues : State.reset.AtResetValues := by constructor <;> rfl

theorem State.resetCore_atResetValues (s : State) : s.resetCore.AtResetValues := by constructor <;> simp

/-- `irq` needs IRQ_EN and DONE, and both are 0 after a reset (R250). -/
theorem State.AtResetValues.irq_eq_false {s : State} (h : s.AtResetValues) : s.irq = false := by
  simp [State.irq, h.irqEn]

theorem nextActivity_hardwareReset {s : State} {rest : List Event} (h : s.agenda = .hardwareReset :: rest) :
    s.nextActivity = .reset := by simp [State.nextActivity, h]

/-- A hardware reset is `resetCore`, with its event taken off the agenda (R270). -/
theorem step_hardwareReset {s : State} {rest : List Event} (h : s.agenda = .hardwareReset :: rest) :
    step s = .next s.takeEvent.resetCore := by
  simp only [step, nextActivity_hardwareReset h]

/-- A CTRL write with SRST set is `resetCore`, whatever its other bits (R133, R271). -/
theorem exec_wrCtrl_of_srst {v : Word} (h : v.getLsbD 0 = true) (s : State) :
    exec (.wrCtrl v) s = .next s.resetCore := by
  simp only [exec, execWrCtrl, h, if_true]

/-- Settles O42: both resets are `resetCore`, which leaves the values of R44, and at these values `irq` is 0. -/
theorem resetLeavesTheResetValues : Obligations.ResetLeavesTheResetValues := by
  have core_values : ∀ s : State, s.resetCore.AtResetValues ∧ s.resetCore.irq = false := fun s =>
    ⟨s.resetCore_atResetValues, s.resetCore_atResetValues.irq_eq_false⟩
  refine ⟨State.reset_atResetValues, State.reset_atResetValues.irq_eq_false, ?hardware, ?soft⟩
  case hardware => exact fun s _ h => ⟨_, step_hardwareReset h, core_values s.takeEvent⟩
  case soft => exact fun s _ h => ⟨_, exec_wrCtrl_of_srst h s, core_values s⟩

end Sys2Proof.Machine
end

section
/-! PROOFS. The host window (20_memory.md R60, R61): how an address becomes an offset, and the offsets at which a write
is ignored and a reserved read gives 0. -/

namespace Sys2Proof

/-- CORE_BASE is a whole number of windows (R60). -/
theorem Config.coreBase_mod_window : Config.coreBase % 4096 = 0 :=
  Nat.mod_eq_zero_of_dvd (Nat.dvd_mul_left ..)

theorem inWindow_iff (addr : Nat) : inWindow addr ↔ Config.coreBase ≤ addr ∧ addr < Config.coreBase + 4096 := by
  rw [inWindow, Config.window]

/-- Inside the window the twelve bits of the offset lose nothing of the difference. -/
theorem offsetOf_toNat {addr : Nat} (h : inWindow addr) : (offsetOf addr).toNat = addr - Config.coreBase := by
  obtain ⟨hlo, hhi⟩ := (inWindow_iff addr).1 h
  rw [offsetOf, BitVec.toNat_ofNat, Nat.mod_eq_of_lt (by omega)]

/-- Settles O56: the base is a multiple of 4096, so taking it away leaves the low 12 bits of an address. -/
theorem windowOffsetIsTheLowTwelveBits : Obligations.WindowOffsetIsTheLowTwelveBits := by
  have hbase := Config.coreBase_mod_window
  refine ⟨hbase, fun addr hin => ?_⟩
  rw [offsetOf_toNat hin]
  obtain ⟨hlo, hhi⟩ := (inWindow_iff addr).1 hin
  constructor <;> omega

/-- The registers a write does something at lie below the first reserved range (R23, R61). -/
theorem not_mem_writableRegisters {off : Offset} (h : 0x038 ≤ off.toNat) : off ∉ writableRegisters := fun hmem => by
  have below : ∀ r ∈ writableRegisters, r.toNat < 0x038 := by decide
  have := below off hmem
  omega

/-- An aligned write outside the writable registers and RXBUF falls to the last row (R121). -/
theorem decode_write_of_not_writable {off : Offset} (v : Word) (ha : off.toNat % 4 = 0)
    (hreg : off ∉ writableRegisters) (hbuf : ¬(0x200 ≤ off.toNat ∧ off.toNat ≤ 0x2FF)) :
    decode (.access (.write off .w32 v)) = .wrRoOrReserved off v := by
  have hrx : inRxbuf off = false := by rwa [← Bool.not_eq_true, Machine.inRxbuf_iff]
  simp only [writableRegisters, List.mem_cons, List.not_mem_nil, or_false, not_or] at hreg
  rw [decode, decodeAccess_write v ((Machine.wordAligned_iff off).2 ha)]
  simp only [decodeWrite, hreg, hrx, Bool.false_eq_true, if_false]

namespace Machine

/-- A read of an offset that draws nothing gives the value held there and changes nothing else, busy or not (R130). -/
theorem exec_rdName_of_not_drawn {off : Offset} (h : drawsWhileBusy off = false) (s : State) :
    exec (.rdName off) s = .next { s with readData := s.exactWord off } := by
  have hs : off ≠ Reg.status ∧ isResultState off = false := by simpa [drawsWhileBusy] using h
  simp only [exec, execRdName, State.readWord_of_other s hs.2 hs.1, h, Bool.and_false, Bool.false_eq_true, if_false]

/-- No reserved offset is result state or STATUS (R61, R125). -/
theorem drawsWhileBusy_reserved {off : Offset}
    (h : (0x038 ≤ off.toNat ∧ off.toNat ≤ 0x0FF) ∨ 0x3F4 ≤ off.toNat) : drawsWhileBusy off = false := by
  have registers : ∀ r ∈ [0x004#12, 0x018#12, 0x02C#12, 0x030#12, 0x034#12], r.toNat < 0x038 := by decide
  rw [← Bool.not_eq_true, drawsWhileBusy, Bool.or_eq_true, beq_iff_eq, isResultState_iff]
  rintro (hstatus | hreg | hbuf)
  · have := registers off (by simp [hstatus])
    omega
  · have := registers off (List.mem_cons_of_mem _ hreg)
    omega
  · omega

/-- Settles O51: no reserved or read-only offset is writable, and a reserved read gives the 0 held there. -/
theorem reservedAndReadOnlyOffsetsIgnoreWrites : Obligations.ReservedAndReadOnlyOffsetsIgnoreWrites := by
  refine fun s off v => ⟨rfl, fun ha => ⟨fun hres => ⟨?reservedWrite, ?reservedRead⟩, ?readOnly⟩⟩
  case reservedWrite => exact decode_write_of_not_writable v ha (not_mem_writableRegisters (by omega)) (by omega)
  case reservedRead =>
    rw [decode, decodeAccess_read ((wordAligned_iff off).2 ha), exec_rdName_of_not_drawn (drawsWhileBusy_reserved hres),
      State.exactWord_reserved s hres]
  case readOnly =>
    rintro (hreg | hbuf)
    · have registers : ∀ r ∈ [0x018#12, 0x02C#12, 0x030#12, 0x034#12], r ∉ writableRegisters ∧ r.toNat < 0x038 := by
        decide
      obtain ⟨hw, hlt⟩ := registers off hreg
      exact decode_write_of_not_writable v ha hw (by omega)
    · exact decode_write_of_not_writable v ha (not_mem_writableRegisters (by omega)) (by omega)

end Machine

end Sys2Proof
end

section
/-! PROOFS. The rule of legality of a command word (30_encoding.md R93): the condition on its four fields, and the nine
words of the map (R94) that meet it. -/

namespace Sys2Proof

/-- The four fields of R90, most significant first, are the whole word. -/
theorem cmdFields_append (w : Word) : cmdRsv1 w ++ cmdFc w ++ cmdRsv0 w ++ cmdOp w = w := by
  have hfc : cmdRsv1 w ++ cmdFc w = w.extractLsb' 8 24 := BitVec.extractLsb'_append_extractLsb'_eq_extractLsb' rfl
  have hrsv0 : w.extractLsb' 8 24 ++ cmdRsv0 w = w.extractLsb' 4 28 :=
    BitVec.extractLsb'_append_extractLsb'_eq_extractLsb' rfl
  have hop : w.extractLsb' 4 28 ++ cmdOp w = w.extractLsb' 0 32 :=
    BitVec.extractLsb'_append_extractLsb'_eq_extractLsb' rfl
  rw [hfc, hrsv0, hop, BitVec.extractLsb'_eq_self]

/-- `legalCommand` is the condition of R93 on OP, RSV0, FC and RSV1. -/
theorem legalCommand_iff_fields (w : Word) :
    legalCommand w = true ↔ cmdRsv0 w = 0 ∧ cmdRsv1 w = 0 ∧
      ((cmdOp w ∈ [0x1#4, 0x2#4, 0x5#4] ∧ cmdFc w = 0x00#8) ∨
       (cmdOp w ∈ [0x3#4, 0x4#4] ∧ cmdFc w ∈ [0x03#8, 0x06#8, 0x10#8])) := by
  simp [legalCommand, and_assoc, or_assoc]

/-- The nine words of the map (R94). -/
def legalWords : List Word :=
  [0x00000001#32, 0x00000002#32, 0x00000303#32, 0x00000603#32, 0x00001003#32, 0x00000304#32, 0x00000604#32,
    0x00001004#32, 0x00000005#32]

/-- With both reserved fields 0, OP and FC alone determine the word. -/
theorem eq_of_reserved_zero {w : Word} (h0 : cmdRsv0 w = 0) (h1 : cmdRsv1 w = 0) :
    w = 0#16 ++ cmdFc w ++ 0#4 ++ cmdOp w := by
  simpa [h0, h1] using (cmdFields_append w).symm

/-- A legal word has reserved fields 0, and each OP of R93 with each FC the rule allows it makes one of the nine words.
-/
theorem legalCommand_iff_mem_legalWords (w : Word) : legalCommand w = true ↔ w ∈ legalWords := by
  constructor
  case mpr =>
    have all_legal : legalWords.all legalCommand = true := by decide
    exact List.all_eq_true.1 all_legal w
  case mp =>
    intro h
    obtain ⟨h0, h1, hpair⟩ := (legalCommand_iff_fields w).1 h
    rw [eq_of_reserved_zero h0 h1]
    have crcOrFifo : ∀ op ∈ [0x1#4, 0x2#4, 0x5#4], 0#16 ++ 0x00#8 ++ 0#4 ++ op ∈ legalWords := by decide
    have frame : ∀ op ∈ [0x3#4, 0x4#4], ∀ fc ∈ [0x03#8, 0x06#8, 0x10#8], 0#16 ++ fc ++ 0#4 ++ op ∈ legalWords := by
      decide
    rcases hpair with ⟨hop, hfc⟩ | ⟨hop, hfc⟩
    · rw [hfc]
      exact crcOrFifo _ hop
    · exact frame _ hop _ hfc

/-- Settles O3: the rule on the fields is `legalCommand` read as a proposition, and the fields make up the word. -/
theorem exactlyNineCommandWordsAreLegal : Obligations.ExactlyNineCommandWordsAreLegal := fun w =>
  ⟨legalCommand_iff_fields w, legalCommand_iff_mem_legalWords w⟩

end Sys2Proof
end

section
/-! PROOFS. The Host's register writes (40_command_interface.md R122 to R124, R131 to R133): CTRL, STATUS, CMD, and the
operand registers while the core is idle. -/

namespace Sys2Proof.Machine

/-- Settles O41: SRST in bit 0 makes the write the soft reset; without it only IRQ_EN is written. -/
theorem ctrlWriteResetsOrEnablesTheInterrupt : Obligations.CtrlWriteResetsOrEnablesTheInterrupt := by
  refine fun s v => ⟨fun hset => ?softReset, fun hclear => ?interruptEnable⟩
  case softReset => exact ⟨_, exec_wrCtrl_of_srst hset s, s.resetCore_atResetValues⟩
  case interruptEnable => simp only [exec, execWrCtrl, hclear, Bool.false_eq_true, if_false]

/-- A flag is cleared by a 1 in its bit (R132). -/
theorem clearIf_of_set {b : Bool} (flag : Bool) (h : b = true) : clearIf b flag = false := by
  simp [clearIf, h]

/-- A flag is kept by a 0 in its bit (R132). -/
theorem clearIf_of_clear {b : Bool} (flag : Bool) (h : b = false) : clearIf b flag = flag := by
  simp [clearIf, h]

/-- Settles O44: DONE and IGN are the two flags written, each through `clearIf` on its own bit. -/
theorem statusWriteClearsDoneAndIgn : Obligations.StatusWriteClearsDoneAndIgn := fun s _ =>
  ⟨_, rfl, rfl, clearIf_of_set s.done, clearIf_of_clear s.done, clearIf_of_set s.ign, clearIf_of_clear s.ign⟩

/-- Settles O45: a CMD write is the acceptance under the busy-write rule, and neither looks at the word. -/
theorem cmdWriteIsAcceptedOrDropped : Obligations.CmdWriteIsAcceptedOrDropped := fun s w =>
  ⟨fun hidle => congrArg Host.Outcome.next (State.unlessBusy_of_idle (s.accept w) hidle),
   fun hbusy => congrArg Host.Outcome.next (State.unlessBusy_of_busy (s.accept w) hbusy)⟩

theorem byteField_eq_ofNat (v : Word) : byteField v = BitVec.ofNat 8 (v.toNat % 256) := by
  apply BitVec.eq_of_toNat_eq
  rw [byteField_toNat, BitVec.toNat_ofNat]
  omega

theorem halfField_eq_ofNat (v : Word) : halfField v = BitVec.ofNat 16 (v.toNat % 65536) := by
  apply BitVec.eq_of_toNat_eq
  rw [halfField_toNat, BitVec.toNat_ofNat]
  omega

/-- Lane `i` of a stored word is the byte at its base plus `i` (R65). -/
theorem State.byteAt_storeWord_lane (s : State) (base : Nat) (v : Word) {i : Nat} (h : i < 4) :
    (s.storeWord base v).byteAt (base + i) = lane v i := by
  rw [State.byteAt_storeWord, if_neg (by omega), Nat.add_sub_cancel_left]
  interval_cases i <;> rfl

/-- Settles O46: while idle each write has its effect, and the effect keeps the register's field of the word. -/
theorem operandWritesKeepTheirFields : Obligations.OperandWritesKeepTheirFields := by
  intro s v hidle
  have effect : ∀ s' : State, Host.Outcome.next (ρ := Refusal) (φ := Fault) (s.unlessBusy s') = .next s' := fun s' =>
    congrArg Host.Outcome.next (State.unlessBusy_of_idle s' hidle)
  refine ⟨?slave, ?arg0, ?arg1, ⟨_, effect _, rxLenField_toNat v, rfl⟩, fun k _ => ⟨_, effect _, ?lanes, ?others, rfl⟩⟩
  case slave => rw [← byteField_eq_ofNat]; exact effect _
  case arg0 => rw [← halfField_eq_ofNat]; exact effect _
  case arg1 => rw [← halfField_eq_ofNat]; exact effect _
  case lanes =>
    intro i hi
    rw [State.rxByte, ← Nat.add_assoc, State.byteAt_storeWord_lane s _ v hi, lane_toNat]
  case others => exact fun a ha => by rw [State.byteAt_storeWord, if_pos ha]

end Sys2Proof.Machine
end

section
/-! PROOFS. The illegal command (30_encoding.md R95; 40_command_interface.md R129): which words decode to it. -/

namespace Sys2Proof

/-- The decoder gives exactly the words outside the map of R94 to the illegal command (R95). -/
theorem decodeCommand_eq_illegalCommand_iff (w : Word) :
    decodeCommand w = .illegalCommand w ↔ w ∉ legalWords := by
  simp only [legalWords, List.mem_cons, List.not_mem_nil, or_false]
  constructor
  case mp =>
    rintro hdec (rfl | rfl | rfl | rfl | rfl | rfl | rfl | rfl | rfl) <;> exact nomatch hdec
  case mpr =>
    intro hmem
    simp only [not_or] at hmem
    simp only [decodeCommand, hmem, if_false]

/-- Settles O4: the map of R94 holds the legal words, and the illegal command is one completion. -/
theorem illegalWordsCompleteWithCodeEight : Obligations.IllegalWordsCompleteWithCodeEight := fun w s => by
  refine ⟨?decoded, rfl⟩
  rw [decodeCommand_eq_illegalCommand_iff, ← legalCommand_iff_mem_legalWords, Bool.not_eq_true]

end Sys2Proof
end

section
/-! PROOFS. What a command leaves alone (40_command_interface.md R134): the operand registers, RXBUF, CRC and CTRL. -/

namespace Sys2Proof.Machine

/-- `t` has the operand registers and the 256 bytes of RXBUF of `s`. -/
structure SameOperandRegisters (s t : State) : Prop where
  slave : t.slave = s.slave
  arg0 : t.arg0 = s.arg0
  arg1 : t.arg1 = s.arg1
  rxLen : t.rxLen = s.rxLen
  rxbuf : ∀ i, i < 256 → t.rxByte i = s.rxByte i

/-- `t` also has the CRC accumulator and the IRQ_EN of `s`: what no command writes (R134). -/
structure KeepsOperands (s t : State) : Prop extends SameOperandRegisters s t where
  crcAcc : t.crcAcc = s.crcAcc
  irqEn : t.irqEn = s.irqEn

theorem SameOperandRegisters.trans {s t u : State} (hst : SameOperandRegisters s t) (htu : SameOperandRegisters t u) :
    SameOperandRegisters s u where
  slave := htu.slave.trans hst.slave
  arg0 := htu.arg0.trans hst.arg0
  arg1 := htu.arg1.trans hst.arg1
  rxLen := htu.rxLen.trans hst.rxLen
  rxbuf i hi := (htu.rxbuf i hi).trans (hst.rxbuf i hi)

theorem KeepsOperands.trans {s t u : State} (hst : KeepsOperands s t) (htu : KeepsOperands t u) : KeepsOperands s u where
  toSameOperandRegisters := hst.toSameOperandRegisters.trans htu.toSameOperandRegisters
  crcAcc := htu.crcAcc.trans hst.crcAcc
  irqEn := htu.irqEn.trans hst.irqEn

theorem State.complete_keepsOperands (s : State) (code : ErrorCode) (exc : Byte) (r0 r1 : Half) :
    KeepsOperands s (s.complete code exc r0 r1) :=
  ⟨⟨rfl, rfl, rfl, rfl, fun _ _ => rfl⟩, rfl, rfl⟩

theorem State.clearFifo_keepsOperands (s : State) : KeepsOperands s s.clearFifo :=
  ⟨⟨rfl, rfl, rfl, rfl, fun _ _ => rfl⟩, rfl, rfl⟩

theorem State.buildFail_keepsOperands (s : State) : KeepsOperands s s.buildFail :=
  ⟨⟨rfl, rfl, rfl, rfl, fun _ _ => rfl⟩, rfl, rfl⟩

/-- A frame that fits TXBUF ends below RXBUF (R171). -/
theorem State.emit_keepsOperands (s : State) {body : List Byte} (h : body.length + 2 ≤ 256) :
    KeepsOperands s (s.emit body) where
  slave := s.emit_slave body
  arg0 := s.emit_arg0 body
  arg1 := s.emit_arg1 body
  rxLen := s.emit_rxLen body
  crcAcc := s.emit_crcAcc body
  irqEn := s.emit_irqEn body
  rxbuf i _ := s.byteAt_emit_of_outside (by simp only [Reg.rxbuf]; omega)

/-- RDATA begins above RXBUF, so that a read response is stored beside it (R216, R217). -/
theorem State.readSuccess_keepsOperands (s : State) : KeepsOperands s s.readSuccess where
  slave := s.readSuccess_slave
  arg0 := s.readSuccess_arg0
  arg1 := s.readSuccess_arg1
  rxLen := s.readSuccess_rxLen
  crcAcc := s.readSuccess_crcAcc
  irqEn := s.readSuccess_irqEn
  rxbuf i hi := s.byteAt_readSuccess _ (by simp only [Reg.rxbuf]; omega)

/-- The fifo's bound of the invariant keeps a 0x10 request inside TXBUF (R102, R176). -/
theorem State.Inv.multiRequest_fits {s : State} (h : s.Inv) :
    (multiRequest s.slave s.arg0 s.arg1 s.fifo).length + 2 ≤ 256 := by
  have hq : s.fifo.length ≤ 123 := h.fifoBound
  rw [multiRequest_length]
  omega

/-- Each end a command can have keeps the operands. -/
theorem exec_command_keepsOperands {s t : State} {w : Word} (hinv : s.Inv)
    (h : exec (decodeCommand w) s = .next t) : KeepsOperands s t := by
  have short_fits (f : Byte) : (shortRequest s.slave f s.arg0 s.arg1).length + 2 ≤ 256 := by simp
  rcases exec_command_cases h with ⟨code, exc, r0, r1, rfl, -⟩ | ⟨-, -, rfl⟩ | ⟨-, -, rfl⟩ | ⟨-, rfl⟩ | ⟨-, -, rfl⟩ |
    ⟨-, -, rfl⟩ | ⟨-, -, rfl⟩ | ⟨-, rfl⟩
  · exact s.complete_keepsOperands code exc r0 r1
  · exact s.emit_keepsOperands (short_fits _)
  · exact s.buildFail_keepsOperands
  · exact s.emit_keepsOperands (short_fits _)
  · exact s.clearFifo_keepsOperands.trans (s.clearFifo.emit_keepsOperands hinv.multiRequest_fits)
  · exact s.clearFifo_keepsOperands.trans s.clearFifo.buildFail_keepsOperands
  · exact s.readSuccess_keepsOperands
  · exact s.clearFifo_keepsOperands.trans (s.clearFifo.complete_keepsOperands ..)

/-- Settles O18: the frame of every command is `KeepsOperands`. -/
theorem commandsKeepTheOperands : Obligations.CommandsKeepTheOperands := by
  intro s t w hinv h
  obtain ⟨⟨slave, arg0, arg1, rxLen, rxbuf⟩, crcAcc, irqEn⟩ := exec_command_keepsOperands hinv h
  exact ⟨slave, arg0, arg1, rxLen, crcAcc, irqEn, rxbuf⟩

end Sys2Proof.Machine
end

section
/-! PROOFS. A command's completion is a function of its operands (40_command_interface.md R136). -/

namespace Sys2Proof.Machine

/-- Two states hold the same completion: the registers every command writes, and what is left of Q (R128, R181). -/
structure SameCompletion (s t : State) : Prop where
  errCode : t.errCode = s.errCode
  errExc : t.errExc = s.errExc
  res0 : t.res0 = s.res0
  res1 : t.res1 = s.res1
  fifo : t.fifo = s.fifo
  wovf : t.wovf = s.wovf

/-- Two states hold the same frame for the Host to send (R171). -/
structure SameFrame (s t : State) : Prop where
  txLen : t.txLen = s.txLen
  txByte : ∀ i, i < s.txLen.toNat → t.txByte i = s.txByte i

/-- Whatever the parser answers but SHORT_FRAME, the length check passed (R201). -/
theorem lengthOk_of_parseCode_ne_shortFrame {f : Byte} {b : Nat → Byte} {len n : Nat} {slave : Byte}
    (h : parseCode f b len n slave ≠ .shortFrame) : lengthOk f b len n = true := by
  cases hl : lengthOk f b len n with
  | true => rfl
  | false => exact absurd (by simp [parseCode, hl]) h

/-- A write response that parses well has eight bytes (R205). -/
theorem echo_length {f : Byte} {b : Nat → Byte} {len n : Nat} {slave : Byte}
    (hf : f = fcWriteSingle ∨ f = fcWriteMultiple) (h : parseCode f b len n slave = .none) : len = 8 := by
  obtain ⟨hlen, -, -, hfc, -⟩ := parseCode_eq_none h
  have not_exception : f ≠ f ||| 0x80 ∧ f ≠ fcReadHolding := by rcases hf with rfl | rfl <;> decide
  rw [lengthOk, hfc, if_neg (fun hexc => not_exception.1 hexc.2), if_neg not_exception.2, decide_eq_true_eq] at hlen
  exact hlen

theorem State.emit_sameFrame (s t : State) (body : List Byte) : SameFrame (s.emit body) (t.emit body) where
  txLen := rfl
  txByte i hi := by
    have hlen : i < body.length + 2 := by
      rw [State.emit_txLen, appendCrc_length, BitVec.toNat_ofNat] at hi
      exact hi.trans_le (Nat.mod_le ..)
    rw [State.txByte_emit t hlen, State.txByte_emit s hlen]

/-- A failed BUILD leaves the empty frame (R178). -/
theorem State.buildFail_sameFrame (s t : State) : SameFrame s.buildFail t.buildFail :=
  ⟨rfl, fun i hi => absurd hi (Nat.not_lt_zero i)⟩

/-- A PARSE.RHR that reports no error stored the registers of a good response (R213, R216). -/
theorem execParseRhr_of_no_error {s t : State} (h : execParseRhr s = .next t) (hok : t.errCode = .none) :
    parseCode fcReadHolding s.rxByte s.rxLen.toNat s.arg1.toNat s.slave = .none ∧ t = s.readSuccess := by
  obtain rfl := Host.Outcome.next.inj h
  rw [State.parse_eq] at hok ⊢
  split
  case isTrue hnone => exact ⟨hnone, rfl⟩
  case isFalse hfail =>
    rw [if_neg hfail, State.complete_errCode] at hok
    exact absurd hok hfail

section
variable {s t : State} (h : SameOperands s t)
include h

theorem SameOperands.received_eq : t.received = s.received := by
  rw [State.received, State.received, h.rxLen]
  exact State.rxPrefix_congr h.received

/-- The parser reads operands only (R200). -/
theorem SameOperands.parseCode_eq (f : Byte) :
    parseCode f t.rxByte t.rxLen.toNat t.arg1.toNat t.slave = parseCode f s.rxByte s.rxLen.toNat s.arg1.toNat s.slave := by
  rw [h.rxLen, h.arg1, h.slave]
  exact parseCode_congr f _ _ h.received

theorem SameOperands.wmrOk_eq : wmrOk t = wmrOk s := by
  rw [wmrOk, wmrOk, h.wovf, h.arg1, h.fifo]

theorem SameOperands.clearFifo : SameOperands s.clearFifo t.clearFifo :=
  ⟨h.slave, h.arg0, h.arg1, h.rxLen, h.received, rfl, rfl⟩

/-- The same values completed with, Q as it was. -/
theorem SameOperands.complete (code : ErrorCode) (exc : Byte) (r0 r1 : Half) :
    SameCompletion (s.complete code exc r0 r1) (t.complete code exc r0 r1) :=
  ⟨rfl, rfl, rfl, rfl, h.fifo, h.wovf⟩

theorem SameOperands.buildFail : SameCompletion s.buildFail t.buildFail := ⟨rfl, rfl, rfl, rfl, h.fifo, h.wovf⟩

theorem SameOperands.emit (body : List Byte) : SameCompletion (s.emit body) (t.emit body) :=
  ⟨rfl, rfl, rfl, rfl, h.fifo, h.wovf⟩

theorem SameOperands.readSuccess : SameCompletion s.readSuccess t.readSuccess :=
  ⟨rfl, rfl, h.arg1, rfl, h.fifo, h.wovf⟩

/-- The echo lies in the first six bytes of RXBUF (R218, R219). -/
theorem SameOperands.echoSuccess (hlen : 6 ≤ s.rxLen.toNat) : SameCompletion s.echoSuccess t.echoSuccess := by
  have echo : ∀ i, i < 6 → t.rxByte i = s.rxByte i := fun i hi => h.received i (by omega)
  rw [State.echoSuccess, State.echoSuccess, echo 2 (by decide), echo 3 (by decide), echo 4 (by decide),
    echo 5 (by decide)]
  exact h.complete ..

/-- A PARSE completes the same from the same operands, if its success does (R201). An exception's byte is read only
after the length check passed (R208). -/
theorem SameOperands.parse (f : Byte) {u v : State}
    (success : parseCode f s.rxByte s.rxLen.toNat s.arg1.toNat s.slave = .none → SameCompletion u v) :
    SameCompletion (s.parse f u) (t.parse f v) := by
  rw [State.parse_eq, State.parse_eq, h.parseCode_eq]
  by_cases hnone : parseCode f s.rxByte s.rxLen.toNat s.arg1.toNat s.slave = .none
  · rw [if_pos hnone, if_pos hnone]
    exact success hnone
  · rw [if_neg hnone, if_neg hnone]
    by_cases hexc : parseCode f s.rxByte s.rxLen.toNat s.arg1.toNat s.slave = .deviceException
    · have hlen := five_le_of_lengthOk (lengthOk_of_parseCode_ne_shortFrame (by rw [hexc]; decide))
      rw [h.received 2 (by omega)]
      exact h.complete ..
    · rw [if_neg hexc, if_neg hexc]
      exact h.complete ..

/-- PARSE.WSR and PARSE.WMR succeed on eight bytes, and so read an echo that is received (R218, R219). -/
theorem SameOperands.parse_echo {f : Byte} (hf : f = fcWriteSingle ∨ f = fcWriteMultiple) :
    SameCompletion (s.parse f s.echoSuccess) (t.parse f t.echoSuccess) :=
  h.parse f fun hok => h.echoSuccess (by have := echo_length hf hok; omega)

theorem SameOperands.build_emit (body : List Byte) :
    SameCompletion (s.emit body) (t.emit body) ∧ SameFrame (s.emit body) (t.emit body) :=
  ⟨h.emit body, s.emit_sameFrame t body⟩

theorem SameOperands.build_fail : SameCompletion s.buildFail t.buildFail ∧ SameFrame s.buildFail t.buildFail :=
  ⟨h.buildFail, s.buildFail_sameFrame t⟩

variable {u v : State}

/-- BUILD.RHR reads SLAVE, ARG0 and ARG1 (R172). -/
theorem SameOperands.buildRhr (hu : execBuildRhr s = .next u) (hv : execBuildRhr t = .next v) :
    SameCompletion u v ∧ SameFrame u v := by
  obtain rfl := Host.Outcome.next.inj hu
  obtain rfl := Host.Outcome.next.inj hv
  rw [h.slave, h.arg0, h.arg1]
  by_cases hzero : s.arg1 = 0
  · rw [if_pos hzero, if_pos hzero]
    exact h.build_fail
  · rw [if_neg hzero, if_neg hzero]
    exact h.build_emit _

/-- BUILD.WSR reads SLAVE, ARG0 and ARG1 (R174). -/
theorem SameOperands.buildWsr (hu : execBuildWsr s = .next u) (hv : execBuildWsr t = .next v) :
    SameCompletion u v ∧ SameFrame u v := by
  obtain rfl := Host.Outcome.next.inj hu
  obtain rfl := Host.Outcome.next.inj hv
  rw [h.slave, h.arg0, h.arg1]
  exact h.build_emit _

/-- BUILD.WMR reads SLAVE, ARG0, ARG1, Q and WOVF (R176). -/
theorem SameOperands.buildWmr (hu : execBuildWmr s = .next u) (hv : execBuildWmr t = .next v) :
    SameCompletion u v ∧ SameFrame u v := by
  obtain rfl := Host.Outcome.next.inj hu
  obtain rfl := Host.Outcome.next.inj hv
  rw [h.wmrOk_eq, h.slave, h.arg0, h.arg1, h.fifo]
  by_cases hok : wmrOk s = true
  · rw [if_pos hok, if_pos hok]
    exact h.clearFifo.build_emit _
  · rw [if_neg hok, if_neg hok]
    exact h.clearFifo.build_fail

/-- A successful PARSE.RHR returns registers that lie below RX_LEN (R214, R216). -/
theorem SameOperands.parseRhr_rdata (hu : execParseRhr s = .next u) (hv : execParseRhr t = .next v)
    (hu_ok : u.errCode = .none) (hv_ok : v.errCode = .none) {i : Nat} (hi : i < u.res0.toNat) :
    v.rdata i = u.rdata i := by
  obtain ⟨hparse, rfl⟩ := execParseRhr_of_no_error hu hu_ok
  obtain ⟨-, rfl⟩ := execParseRhr_of_no_error hv hv_ok
  rw [State.readSuccess_res0] at hi
  have hlen := rhr_length hparse
  rw [State.rdata_readSuccess s hi, State.rdata_readSuccess t (by rw [h.arg1]; exact hi),
    h.received _ (by omega), h.received _ (by omega)]

/-- Every command word completes the same from the same operands. -/
theorem SameOperands.exec_command {w : Word} (hu : exec (decodeCommand w) s = .next u)
    (hv : exec (decodeCommand w) t = .next v) : SameCompletion u v := by
  rcases decodeCommand_cases w with ⟨-, e⟩ | ⟨-, e⟩ | ⟨-, e⟩ | ⟨-, e⟩ | ⟨-, e⟩ | ⟨-, e⟩ | ⟨-, e⟩ | ⟨-, e⟩ | ⟨-, e⟩ | e
  all_goals
    rw [e] at hu hv
    obtain rfl := Host.Outcome.next.inj hu
    obtain rfl := Host.Outcome.next.inj hv
  · rw [h.received_eq]
    exact h.complete ..
  · rw [h.received_eq, h.arg1]
    exact h.complete ..
  · exact (h.buildRhr rfl rfl).1
  · exact (h.buildWsr rfl rfl).1
  · exact (h.buildWmr rfl rfl).1
  · exact h.parse _ fun _ => h.readSuccess
  · exact h.parse_echo (.inl rfl)
  · exact h.parse_echo (.inr rfl)
  · exact h.clearFifo.complete ..
  · exact h.complete ..

end

/-- Settles O19: all commands make the same completion, the BUILDs the same frame, and PARSE.RHR returns bytes below
RX_LEN. -/
theorem completionDependsOnTheOperandsOnly : Obligations.CompletionDependsOnTheOperandsOnly := by
  intro s₁ s₂ t₁ t₂ w hs h₁ h₂
  obtain ⟨errCode, errExc, res0, res1, fifo, wovf⟩ := hs.exec_command h₁ h₂
  refine ⟨errCode, errExc, res0, res1, fifo, wovf, fun hbuild => ?frame, ?registers⟩
  case frame =>
    have sameFrame : SameFrame t₁ t₂ := by
      simp only [List.mem_cons, List.not_mem_nil, or_false] at hbuild
      rcases hbuild with rfl | rfl | rfl
      · exact (hs.buildRhr h₁ h₂).2
      · exact (hs.buildWsr h₁ h₂).2
      · exact (hs.buildWmr h₁ h₂).2
    exact ⟨sameFrame.txLen, sameFrame.txByte⟩
  case registers =>
    rintro rfl hok i hi
    exact hs.parseRhr_rdata h₁ h₂ hok (errCode.trans hok) hi

end Sys2Proof.Machine
end

section
/-! PROOFS. The operands while a command is pending (40_command_interface.md R135): every step that leaves BUSY = 1 keeps
them, and PEND. -/

namespace Sys2Proof.Machine

/-- `t` has the pending command of `s` and every operand an Engine step reads (R135). -/
structure SameCommand (s t : State) : Prop extends SameOperandRegisters s t where
  fifo : t.fifo = s.fifo
  wovf : t.wovf = s.wovf
  pend : t.pend = s.pend

theorem SameCommand.trans {s t u : State} (hst : SameCommand s t) (htu : SameCommand t u) : SameCommand s u where
  toSameOperandRegisters := hst.toSameOperandRegisters.trans htu.toSameOperandRegisters
  fifo := htu.fifo.trans hst.fifo
  wovf := htu.wovf.trans hst.wovf
  pend := htu.pend.trans hst.pend

/-- Two states that differ only in the fields no command reads hold the same command. -/
theorem sameCommand_of_frame {s t : State}
    (h : t = { s with
      irqEn := t.irqEn, done := t.done, ign := t.ign, crcAcc := t.crcAcc, readData := t.readData, draws := t.draws,
      agenda := t.agenda }) : SameCommand s t := by
  rw [h]
  exact ⟨⟨rfl, rfl, rfl, rfl, fun _ _ => rfl⟩, rfl, rfl, rfl⟩

/-- Every end of a command clears BUSY (R128). -/
theorem exec_command_idle {s t : State} {w : Word} (h : exec (decodeCommand w) s = .next t) : t.busy = false := by
  rcases exec_command_cases h with ⟨_, _, _, _, rfl, -⟩ | ⟨-, -, rfl⟩ | ⟨-, -, rfl⟩ | ⟨-, rfl⟩ | ⟨-, -, rfl⟩ |
    ⟨-, -, rfl⟩ | ⟨-, -, rfl⟩ | ⟨-, rfl⟩ <;> rfl

/-- While busy, an access other than the soft reset writes no operand: the operands are under the busy-write rule, and
STATUS, CTRL, CRC and CRC_DATA are no operands (R124, R132, R133, R152, R153). -/
theorem exec_access_sameCommand {s t : State} {a : HostAccess} (hbusy : s.busy = true)
    (h : exec (decodeAccess a) s = .next t) (hpending : t.busy = true) : SameCommand s t := by
  rcases exec_access_cases h with ⟨_, rfl, _, _, rfl⟩ | ⟨_, v, rfl, _, hwrite⟩
  · exact sameCommand_of_frame rfl
  · simp only [State.unlessBusy_of_busy _ hbusy] at hwrite
    rcases hwrite with ⟨-, -, rfl⟩ | ⟨-, -, rfl⟩ | ⟨-, rfl⟩ | ⟨-, rfl⟩ | ⟨-, rfl⟩ | ⟨-, rfl⟩ | ⟨-, rfl⟩ | ⟨-, rfl⟩ |
      ⟨-, rfl⟩ | ⟨-, rfl⟩ | ⟨-, rfl⟩ | ⟨-, rfl⟩ | ⟨-, -, rfl⟩
    case inl => exact absurd hpending (by simp)
    all_goals exact sameCommand_of_frame rfl

/-- A step between two busy states is an access, or a turn of the Engine with nothing to take. -/
theorem step_sameCommand {s t : State} (hbusy : s.busy = true) (h : step s = .next t) (hpending : t.busy = true) :
    SameCommand s t := by
  rcases step_cases h with ⟨w, -, hexec⟩ | ⟨a, -, hexec⟩ | ⟨-, rfl⟩ | ⟨-, rfl⟩
  · rw [exec_command_idle hexec] at hpending
    contradiction
  · have haccess : SameCommand s.takeEvent t := exec_access_sameCommand hbusy hexec hpending
    exact SameCommand.trans (sameCommand_of_frame rfl) haccess
  · exact absurd hpending (by simp)
  · exact sameCommand_of_frame rfl

/-- Every state up to `k` steps after `u` is busy. -/
def BusyFor (k : Nat) (u : State) : Prop := ∀ j, j ≤ k → ∃ v, run j u = .next v ∧ v.busy = true

/-- A run is its first step and the rest. -/
theorem run_succ_eq_next {k : Nat} {s t : State} (h : run (k + 1) s = .next t) :
    ∃ s', step s = .next s' ∧ run k s' = .next t := by
  rw [run] at h
  split at h
  case h_1 s' hstep => exact ⟨s', hstep, h⟩
  all_goals exact nomatch h

theorem run_succ_of_step {k : Nat} {s s' : State} (h : step s = .next s') : run (k + 1) s = run k s' := by
  rw [run, h]

theorem BusyFor.busy {k : Nat} {u : State} (h : BusyFor k u) : u.busy = true := by
  obtain ⟨v, hrun, hv⟩ := h 0 (Nat.zero_le k)
  obtain rfl := Host.Outcome.next.inj hrun
  exact hv

theorem BusyFor.of_step {k : Nat} {u u' : State} (h : BusyFor (k + 1) u) (hstep : step u = .next u') :
    BusyFor k u' := fun j hj => by
  rw [← run_succ_of_step hstep]
  exact h (j + 1) (Nat.succ_le_succ hj)

theorem run_sameCommand {k : Nat} {u t : State} (hbusy : BusyFor k u) (h : run k u = .next t) : SameCommand u t := by
  induction k generalizing u with
  | zero =>
    obtain rfl := Host.Outcome.next.inj h
    exact sameCommand_of_frame rfl
  | succ k ih =>
    obtain ⟨u', hstep, hrest⟩ := run_succ_eq_next h
    have hrestBusy := hbusy.of_step hstep
    exact (step_sameCommand hbusy.busy hstep hrestBusy.busy).trans (ih hrestBusy hrest)

/-- Settles O12: the acceptance writes PEND and no operand, and a run that stays busy keeps both. -/
theorem operandsAreThoseOfTheAcceptance : Obligations.OperandsAreThoseOfTheAcceptance := by
  intro s u t w k hidle haccept hbusy hrun
  rw [(cmdWriteIsAcceptedOrDropped s w).1 hidle] at haccept
  obtain rfl := Host.Outcome.next.inj haccept
  obtain ⟨⟨slave, arg0, arg1, rxLen, rxbuf⟩, fifo, wovf, pend⟩ := run_sameCommand hbusy hrun
  exact ⟨slave, arg0, arg1, rxLen, rxbuf, fifo, wovf, pend⟩

end Sys2Proof.Machine
end

section
/-! PROOFS. The CRC function on numbers (41_crc16.md R150, R151), the codec's two commands (R154, R155) and its streaming
port (R152, R153). -/

namespace Sys2Proof.Machine

/-- One of the eight iterations of R150, on numbers. -/
def crcShiftNat (n : Nat) : Nat := if n % 2 = 1 then (n / 2) ^^^ 0xA001 else n / 2

theorem crcShift_toNat (c : Half) : (crcShift c).toNat = crcShiftNat c.toNat := by
  have lowBit : c.getLsbD 0 = decide (c.toNat % 2 = 1) := Nat.testBit_zero c.toNat
  have halved : (c >>> 1).toNat = c.toNat / 2 := by rw [BitVec.toNat_ushiftRight, Nat.shiftRight_one]
  rw [crcShift, crcShiftNat, lowBit]
  by_cases hodd : c.toNat % 2 = 1
  · rw [if_pos (decide_eq_true hodd), if_pos hodd, BitVec.toNat_xor, halved, BitVec.toNat_ofNat]
  · rw [if_neg (by simpa using hodd), if_neg hodd, halved]

theorem repeat_crcShift_toNat (k : Nat) (c : Half) : (Nat.repeat crcShift k c).toNat = crcShiftNat^[k] c.toNat := by
  induction k with
  | zero => rfl
  | succ k ih => rw [Nat.repeat, crcShift_toNat, ih, Function.iterate_succ_apply']

/-- The CRC step is the loop of R150 on numbers. -/
theorem crcStep_toNat (c : Half) (x : Byte) : (crcStep c x).toNat = crcShiftNat^[8] (c.toNat ^^^ x.toNat) := by
  have folded : (c ^^^ x.setWidth 16).toNat = c.toNat ^^^ x.toNat := by
    rw [BitVec.toNat_xor, BitVec.toNat_setWidth_of_le (by decide)]
  rw [crcStep, repeat_crcShift_toNat, folded]

/-- Settles O57: each iteration of the step is the one on numbers, and a byte more is a step more of the fold. -/
theorem crcStepIsTheEightIterationLoop : Obligations.CrcStepIsTheEightIterationLoop :=
  ⟨crcStep_toNat, rfl, crc16_concat⟩

/-- CRC.COMPUTE is one completion (R154). -/
theorem exec_crcCompute (s : State) : exec .crcCompute s = .next (s.complete .none 0 (crc16 s.received) 0) := rfl

/-- Settles O21: the completion writes the registers named, and the received bytes are RXBUF below RX_LEN. -/
theorem crcComputePutsTheCrcInResult0 : Obligations.CrcComputePutsTheCrcInResult0 := exec_crcCompute

/-- CRC.CHECK is one completion, whose RESULT1 is the match with ARG1.V (R155). -/
theorem exec_crcCheck (s : State) :
    exec .crcCheck s =
      .next (s.complete .none 0 (crc16 s.received) (if crc16 s.received = s.arg1 then 1 else 0)) := rfl

/-- Settles O22: the completion's RESULT1 is the comparison with ARG1.V. -/
theorem crcCheckPutsTheMatchInResult1 : Obligations.CrcCheckPutsTheMatchInResult1 := by
  intro s
  refine ⟨_, exec_crcCheck s, rfl, ?isMatch, ?mismatch⟩
  case isMatch => exact fun h => if_pos h.symm
  case mismatch => exact fun h => if_neg h.symm

/-- A write of CRC is kept busy or not (R152). -/
theorem exec_wrCrc (v : Word) (s : State) : exec (.wrCrc v) s = .next { s with crcAcc := halfField v } := rfl

/-- A write of CRC_DATA folds in one byte, busy or not (R153). -/
theorem exec_feed (v : Word) (s : State) :
    exec (.feed v) s = .next { s with crcAcc := crcStep s.crcAcc (byteField v) } := rfl

/-- Settles O23: no guard on BUSY stands before either write. -/
theorem crcWriteAndFeedUpdateTheAccumulator : Obligations.CrcWriteAndFeedUpdateTheAccumulator := fun s v =>
  ⟨exec_wrCrc v s, exec_feed v s⟩

end Sys2Proof.Machine
end

section
/-! PROOFS. The write-value FIFO (42_frame_builder.md R180, R181): a push, and WFIFO.CLEAR. -/

namespace Sys2Proof.Machine

/-- WFIFO.CLEAR is one completion after Q is emptied (R181). -/
theorem exec_wfifoClear (s : State) : exec .wfifoClear s = .next (s.clearFifo.complete .none 0 0 0) := rfl

/-- Settles O32: Q and WOVF are what emptying Q writes, the rest is the completion. -/
theorem wfifoClearEmptiesTheFifo : Obligations.WfifoClearEmptiesTheFifo := exec_wfifoClear

theorem State.pushValue_of_room {s : State} (x : Half) (h : s.fifo.length < Config.wfifoDepth) :
    s.pushValue x = { s with fifo := s.fifo ++ [x] } := if_pos h

theorem State.pushValue_of_full {s : State} (x : Half) (h : Config.wfifoDepth ≤ s.fifo.length) :
    s.pushValue x = { s with wovf := true } := if_neg (Nat.not_lt.2 h)

/-- A push while busy is dropped by the busy-write rule (R124, R180). -/
theorem exec_push_of_busy {s : State} (v : Word) (h : s.busy = true) :
    exec (.push v) s = .next { s with ign := true } :=
  congrArg Host.Outcome.next (State.unlessBusy_of_busy _ h)

theorem exec_push_of_idle {s : State} (v : Word) (h : s.busy = false) :
    exec (.push v) s = .next (s.pushValue (halfField v)) :=
  congrArg Host.Outcome.next (State.unlessBusy_of_idle _ h)

/-- Settles O33: the busy-write rule decides first, then whether Q has room. -/
theorem pushAppendsOrSetsOverflow : Obligations.PushAppendsOrSetsOverflow := by
  refine fun s v => ⟨exec_push_of_busy v, fun hidle hroom => ?append, fun hidle hfull => ?overflow⟩
  case append => rw [exec_push_of_idle v hidle, State.pushValue_of_room _ hroom, halfField]
  case overflow => rw [exec_push_of_idle v hidle, State.pushValue_of_full _ hfull]

end Sys2Proof.Machine
end

section
/-! PROOFS. The three BUILD commands (42_frame_builder.md R170 to R178): each one fails or emits its request, and the
bytes of the requests (30_encoding.md R100 to R102). -/

namespace Sys2Proof.Machine

/-! ## The requests, byte by byte -/

theorem shortRequest_eq (s f : Byte) (a v : Half) :
    shortRequest s f a v = [s, f, hi8 a, lo8 a, hi8 v, lo8 v] := rfl

theorem multiRequest_eq (s : Byte) (a n : Half) (q : List Half) :
    multiRequest s a n q =
      [s, 0x10, hi8 a, lo8 a, hi8 n, lo8 n, BitVec.ofNat 8 (2 * n.toNat)] ++ (q.map wireHalf).flatten := by
  rw [multiRequest, shortRequest_eq, lo8_double, List.flatMap_def]
  rfl

/-- Emitting a 0x03 or 0x06 request changes no byte outside `TXBUF[0..8)` (R171). -/
theorem State.byteAt_emit_shortRequest_of_outside (s : State) {x f : Byte} {a v : Half} {i : Nat}
    (h : i < 0x100 ∨ 0x108 ≤ i) : (s.emit (shortRequest x f a v)).byteAt i = s.byteAt i :=
  s.byteAt_emit_of_outside h

/-! ## What each command ends in -/

/-- A count of 0 is the only one BUILD.RHR refuses (R172). -/
theorem exec_buildRhr_of_zero {s : State} (h : s.arg1 = 0) : exec .buildRhr s = .next s.buildFail :=
  congrArg Host.Outcome.next (if_pos h)

theorem exec_buildRhr_of_ne_zero {s : State} (h : s.arg1 ≠ 0) :
    exec .buildRhr s = .next (s.emit (shortRequest s.slave fcReadHolding s.arg0 s.arg1)) :=
  congrArg Host.Outcome.next (if_neg h)

/-- BUILD.WSR cannot fail (R174). -/
theorem exec_buildWsr (s : State) :
    exec .buildWsr s = .next (s.emit (shortRequest s.slave fcWriteSingle s.arg0 s.arg1)) := rfl

theorem exec_buildWmr_of_ok {s : State} (h : wmrOk s = true) :
    exec .buildWmr s = .next (s.clearFifo.emit (multiRequest s.slave s.arg0 s.arg1 s.fifo)) :=
  congrArg Host.Outcome.next (if_pos h)

theorem exec_buildWmr_of_not_ok {s : State} (h : wmrOk s ≠ true) :
    exec .buildWmr s = .next s.clearFifo.buildFail :=
  congrArg Host.Outcome.next (if_neg h)

/-- A u16 count of at least 1 is one that is not 0. -/
theorem one_le_toNat_iff (n : Half) : 1 ≤ n.toNat ↔ n ≠ 0 :=
  Nat.one_le_iff_ne_zero.trans (not_congr (BitVec.toNat_inj (y := 0#16)))

/-! ## The obligations -/

/-- Settles O28: the failure is `buildFail`, the success the emission of the 8-byte request. -/
theorem buildRhrMakesTheReadRequest : Obligations.BuildRhrMakesTheReadRequest := fun s =>
  ⟨exec_buildRhr_of_zero, fun hcount =>
    ⟨_, _, exec_buildRhr_of_ne_zero hcount, rfl, s.frame_emit (by simp), fun _ => s.byteAt_emit_shortRequest_of_outside,
      s.registers_emit _⟩⟩

/-- Settles O29: the emission of the 8-byte request, whatever the value. -/
theorem buildWsrMakesTheWriteRequest : Obligations.BuildWsrMakesTheWriteRequest := fun s =>
  ⟨_, _, exec_buildWsr s, rfl, s.frame_emit (by simp), fun _ => s.byteAt_emit_shortRequest_of_outside, s.registers_emit _⟩

/-- Settles O30: `wmrOk` tells the failure from the emission, and the emission starts from the state whose Q is empty.
The bound on Q keeps the length of the frame in TX_LEN's nine bits. -/
theorem buildWmrMakesTheMultipleWriteRequest : Obligations.BuildWmrMakesTheMultipleWriteRequest := by
  refine fun s hbound => ⟨fun hbad => ?failure, fun ⟨hwovf, hcount, hne⟩ => ?success⟩
  case failure =>
    refine exec_buildWmr_of_not_ok fun hok => ?_
    obtain ⟨hwovf, hcount, hpos⟩ := (wmrOk_iff s).1 hok
    rcases hbad with hset | hdiff | hzero
    · exact Bool.false_ne_true (hwovf.symm.trans hset)
    · exact hdiff hcount
    · exact (one_le_toNat_iff _).1 hpos hzero
  case success =>
    have hok : wmrOk s = true := (wmrOk_iff s).2 ⟨hwovf, hcount, (one_le_toNat_iff _).2 hne⟩
    have hlen : (multiRequest s.slave s.arg0 s.arg1 s.fifo).length + 2 = 9 + 2 * s.arg1.toNat := by
      rw [multiRequest_length, hcount]
      omega
    have hfits : (multiRequest s.slave s.arg0 s.arg1 s.fifo).length + 2 < 512 := by omega
    refine ⟨_, _, exec_buildWmr_of_ok hok, multiRequest_eq .., s.clearFifo.frame_emit hfits, ?txLen, ?outside, ?registers⟩
    case txLen =>
      rw [State.emit_txLen, appendCrc_length, BitVec.toNat_ofNat, Nat.mod_eq_of_lt hfits, hlen]
    case outside => exact fun a ha => s.clearFifo.byteAt_emit_of_outside (by omega)
    case registers =>
      rw [← hlen]
      exact s.clearFifo.registers_emit _

end Sys2Proof.Machine
end

section
/-! PROOFS. The failures of a PARSE (43_frame_parser.md R201 to R213): the length rule, the answer of the validation at
each step, and the completion a failed command ends in. -/

namespace Sys2Proof.Machine

/-- The PARSE commands, each with the function code it expects (R94, R215, R218, R219). -/
def parseCommands : List (Instr × Byte) :=
  [(.parseRhr, fcReadHolding), (.parseWsr, fcWriteSingle), (.parseWmr, fcWriteMultiple)]

/-- A PARSE command is the shared validation with a success of its own (R201). -/
theorem exec_parseCommand {i : Instr} {f : Byte} (hcmd : (i, f) ∈ parseCommands) (s : State) :
    ∃ success, exec i s = .next (s.parse f success) := by
  simp only [parseCommands, List.mem_cons, Prod.mk.injEq, List.not_mem_nil, or_false] at hcmd
  rcases hcmd with ⟨rfl, rfl⟩ | ⟨rfl, rfl⟩ | ⟨rfl, rfl⟩
  · exact ⟨s.readSuccess, rfl⟩
  · exact ⟨s.echoSuccess, rfl⟩
  · exact ⟨s.echoSuccess, rfl⟩

/-- A PARSE that finds a failure completes with it and writes nothing else; only an exception response has a byte to
report (R208, R213). -/
theorem exec_parseCommand_of_failure {i : Instr} {f : Byte} {s : State} {code : ErrorCode}
    (hcmd : (i, f) ∈ parseCommands) (hcode : parseCode f s.rxByte s.rxLen.toNat s.arg1.toNat s.slave = code)
    (hfail : code ≠ .none) :
    exec i s = .next (s.complete code (if code = .deviceException then s.rxByte 2 else 0) 0 0) := by
  obtain ⟨success, hexec⟩ := exec_parseCommand hcmd s
  rw [hexec, State.parse_eq, hcode, if_neg hfail]

section
variable {f : Byte} {b : Nat → Byte} {len n : Nat} {slave : Byte}

/-- The length rule by cases: an exception response has 5 bytes, another 0x03 response at least 5 + 2N, a write response
8 (R203 to R205). -/
theorem lengthOk_iff : lengthOk f b len n = true ↔
    ((2 ≤ len ∧ b 1 = f ||| 0x80) ∧ len = 5) ∨
    (¬(2 ≤ len ∧ b 1 = f ||| 0x80) ∧ f = fcReadHolding ∧ 5 + 2 * n ≤ len) ∨
    (¬(2 ≤ len ∧ b 1 = f ||| 0x80) ∧ f ≠ fcReadHolding ∧ len = 8) := by
  by_cases hexc : 2 ≤ len ∧ b 1 = f ||| 0x80
  · rw [lengthOk, if_pos hexc, decide_eq_true_eq]
    tauto
  · rw [lengthOk, if_neg hexc]
    by_cases hread : f = fcReadHolding
    · rw [if_pos hread, decide_eq_true_eq]
      tauto
    · rw [if_neg hread, decide_eq_true_eq]
      tauto

/-- A response with the expected function code is never taken for an exception (R208). -/
theorem xor_exceptionBit_ne (x : Byte) : x ^^^ 0x80 ≠ x :=
  mt xor_left_eq_self_iff.1 (by decide)

theorem parseCode_of_bad_length (hlen : ¬lengthOk f b len n = true) : parseCode f b len n slave = .shortFrame :=
  if_pos (by simp [hlen])

variable (hlen : lengthOk f b len n = true)
include hlen

theorem parseCode_of_wrong_address (haddr : b 0 ≠ slave) : parseCode f b len n slave = .addressMismatch := by
  rw [parseCode, if_neg (by simp [hlen]), if_pos haddr]

variable (haddr : b 0 = slave)
include haddr

theorem parseCode_of_exception (hexc : b 1 ^^^ 0x80 = f) : parseCode f b len n slave = .deviceException := by
  rw [parseCode, if_neg (by simp [hlen]), if_neg (not_not.2 haddr), if_pos hexc]

theorem parseCode_of_wrong_function (hexc : b 1 ^^^ 0x80 ≠ f) (hfc : b 1 ≠ f) :
    parseCode f b len n slave = .functionMismatch := by
  rw [parseCode, if_neg (by simp [hlen]), if_neg (not_not.2 haddr), if_neg hexc, if_pos hfc]

variable (hfc : b 1 = f)
include hfc

theorem parseCode_of_wrong_crc (hcrc : be16 (b (len - 1)) (b (len - 2)) ≠ crc16 ((List.range (len - 2)).map b)) :
    parseCode f b len n slave = .crcMismatch := by
  rw [parseCode, if_neg (by simp [hlen]), if_neg (not_not.2 haddr), if_neg (hfc ▸ xor_exceptionBit_ne _),
    if_neg (not_not.2 hfc), if_pos hcrc]

/-- With the first five checks passed, the byte count of a 0x03 response decides (R212). -/
theorem parseCode_of_good_crc (hcrc : be16 (b (len - 1)) (b (len - 2)) = crc16 ((List.range (len - 2)).map b)) :
    parseCode f b len n slave = if f = fcReadHolding ∧ (b 2).toNat ≠ 2 * n then .byteCountMismatch else .none := by
  rw [parseCode, if_neg (by simp [hlen]), if_neg (not_not.2 haddr), if_neg (hfc ▸ xor_exceptionBit_ne _),
    if_neg (not_not.2 hfc), if_neg (not_not.2 hcrc)]

end

/-- Settles O34: each clause is the answer of the validation at its step, reported by the failed command. -/
theorem parseReportsTheFirstFailure : Obligations.ParseReportsTheFirstFailure := by
  rintro s i f _ _ hcmd rfl rfl isException lengthGood crcGood failsWith
  have hlen : lengthOk f s.rxByte s.rxLen.toNat s.arg1.toNat = true ↔ lengthGood := lengthOk_iff
  have fails {code : ErrorCode} := exec_parseCommand_of_failure (s := s) (code := code) hcmd
  refine ⟨fun hbad => ?length, fun hgood haddr => ?address, fun hgood haddr hexc => ?exception,
    fun hgood haddr hexc hfc => ?function, fun hgood haddr hfc hcrc => ?crc,
    fun hgood haddr hfc hcrc hread hcount => ?byteCount⟩
  case length => exact fails (parseCode_of_bad_length (mt hlen.1 hbad)) (by decide)
  case address => exact fails (parseCode_of_wrong_address (hlen.2 hgood) haddr) (by decide)
  case exception => exact fails (parseCode_of_exception (hlen.2 hgood) haddr hexc) (by decide)
  case function => exact fails (parseCode_of_wrong_function (hlen.2 hgood) haddr hexc hfc) (by decide)
  case crc => exact fails (parseCode_of_wrong_crc (hlen.2 hgood) haddr hfc hcrc) (by decide)
  case byteCount =>
    exact fails ((parseCode_of_good_crc (hlen.2 hgood) haddr hfc hcrc).trans (if_pos ⟨hread, hcount⟩)) (by decide)

/-- Settles O37: whatever rule of length applies asks for at least five bytes. -/
theorem emptyBufferIsShortFrame : Obligations.EmptyBufferIsShortFrame := by
  intro s i hi hshort
  obtain ⟨f, hcmd⟩ : ∃ f, (i, f) ∈ parseCommands := by
    simpa [parseCommands, exists_or] using hi
  have hbad : ¬lengthOk f s.rxByte s.rxLen.toNat s.arg1.toNat = true := fun hlen => by
    have := five_le_of_lengthOk hlen
    omega
  exact exec_parseCommand_of_failure hcmd (parseCode_of_bad_length hbad) (by decide)

end Sys2Proof.Machine
end

section
/-! PROOFS. The success of PARSE.RHR (43_frame_parser.md R215 to R217): a good 0x03 response is stored in RDATA. -/

namespace Sys2Proof.Machine

/-- A 0x03 response of 5 + 2N bytes is no exception response, and passes the length check (R204). -/
theorem lengthOk_readHolding {b : Nat → Byte} {len n : Nat} (hlen : 5 + 2 * n ≤ len) (hfc : b 1 = fcReadHolding) :
    lengthOk fcReadHolding b len n = true :=
  lengthOk_iff.2 (.inr (.inl ⟨fun hexc => absurd (hfc.symm.trans hexc.2) (by decide), rfl, hlen⟩))

/-- A 0x03 response that passes every check is stored (R215). -/
theorem exec_parseRhr_of_good {s : State} (hlen : 5 + 2 * s.arg1.toNat ≤ s.rxLen.toNat) (haddr : s.rxByte 0 = s.slave)
    (hfc : s.rxByte 1 = fcReadHolding)
    (hcrc : be16 (s.rxByte (s.rxLen.toNat - 1)) (s.rxByte (s.rxLen.toNat - 2)) = crc16 (s.rxPrefix (s.rxLen.toNat - 2)))
    (hcount : (s.rxByte 2).toNat = 2 * s.arg1.toNat) : exec .parseRhr s = .next s.readSuccess := by
  have hcode : parseCode fcReadHolding s.rxByte s.rxLen.toNat s.arg1.toNat s.slave = .none :=
    (parseCode_of_good_crc (lengthOk_readHolding hlen hfc) haddr hfc hcrc).trans (if_neg fun hbad => hbad.2 hcount)
  exact congrArg Host.Outcome.next ((s.parse_eq fcReadHolding s.readSuccess).trans (if_pos hcode))

/-- Storing the registers completes with their number and leaves every other register (R216, R220). -/
theorem State.registers_readSuccess (s : State) :
    { s.readSuccess with mem := s.mem } = { s with
      errCode := .none, errExc := 0, res0 := s.arg1, res1 := 0, busy := false, done := true, pend := none } := rfl

/-- Settles O35: the command ends in `readSuccess`, and 5 + 2N bytes of at most 256 leave N at most 125. -/
theorem parseRhrReturnsTheRegisters : Obligations.ParseRhrReturnsTheRegisters := by
  rintro s _ _ rfl rfl hcap hlen haddr hfc hcrc hcount
  exact ⟨s.readSuccess, exec_parseRhr_of_good hlen haddr hfc hcrc hcount, by omega,
    fun _ hi => s.rdata_readSuccess hi, fun a ha => s.byteAt_readSuccess a ha, s.registers_readSuccess⟩

end Sys2Proof.Machine
end

section
/-! PROOFS. The interrupt line (60_exceptions.md R250, R251): `irq` after a step, as a function of what the step does, and
the activities at which it falls and rises. -/

namespace Sys2Proof.Machine

/-- `irq` after a write: CTRL writes IRQ_EN or resets, STATUS and an accepted CMD clear DONE, and no other write reaches
either (R123, R132, R133). -/
def State.irqAfterWrite (s : State) (off : Offset) (v : Word) : Bool :=
  if off = 0x000#12 then !v.getLsbD 0 && v.getLsbD 1 && s.done
  else if off = 0x004#12 then s.irq && !v.getLsbD 1
  else if off = 0x008#12 then s.irq && s.busy
  else s.irq

/-- `irq` after an access: only a 32-bit write can change it (R130, R245). -/
def State.irqAfterAccess (s : State) : HostAccess → Bool
  | .write off .w32 v => s.irqAfterWrite off v
  | _ => s.irq

/-- `irq` after a step that does the activity: a completion sets DONE, a reset clears DONE and IRQ_EN (R128, R270). -/
def State.irqAfter (s : State) : Activity → Bool
  | .run (.command _) => s.irqEn
  | .run (.access a) => s.irqAfterAccess a
  | .reset => false
  | .idle => s.irq

/-! ## What each step does to `irq` -/

/-- Every end of a command sets DONE and leaves IRQ_EN (R128, R251). -/
theorem exec_command_irq {s t : State} {w : Word} (h : exec (decodeCommand w) s = .next t) : t.irq = s.irqEn := by
  rcases exec_command_cases h with ⟨_, _, _, _, rfl, -⟩ | ⟨-, -, rfl⟩ | ⟨-, -, rfl⟩ | ⟨-, rfl⟩ | ⟨-, -, rfl⟩ |
    ⟨-, -, rfl⟩ | ⟨-, -, rfl⟩ | ⟨-, rfl⟩ <;> exact Bool.and_true _

/-- An acceptance clears DONE; a dropped CMD write does not (R122 to R124). -/
theorem State.irq_unlessBusy_accept (s : State) (w : Word) : (s.unlessBusy (s.accept w)).irq = (s.irq && s.busy) := by
  cases hbusy : s.busy <;> simp [State.irq, hbusy]

theorem State.irqAfterWrite_of_other (s : State) {off : Offset} (v : Word)
    (h : off ∉ [0x000#12, 0x004#12, 0x008#12]) : s.irqAfterWrite off v = s.irq := by
  simp only [List.mem_cons, List.not_mem_nil, or_false, not_or] at h
  simp only [State.irqAfterWrite, h, if_false]

/-- CTRL, STATUS and CMD do as `irqAfterWrite` says; every other access keeps IRQ_EN and DONE. -/
theorem exec_access_irq {s t : State} {a : HostAccess} (h : exec (decodeAccess a) s = .next t) :
    t.irq = s.irqAfterAccess a := by
  rcases exec_access_cases h with ⟨_, rfl, -, _, rfl⟩ | ⟨off, v, rfl, -, hwrite⟩
  · rfl
  change t.irq = s.irqAfterWrite off v
  rcases hwrite with ⟨rfl, hsrst, rfl⟩ | ⟨rfl, hsrst, rfl⟩ | ⟨rfl, rfl⟩ | ⟨rfl, rfl⟩ | hother
  · simp only [State.irqAfterWrite, hsrst, if_true, Bool.not_true, Bool.false_and]
    exact s.resetCore_atResetValues.irq_eq_false
  · simp only [State.irqAfterWrite, hsrst, if_true, Bool.not_false, Bool.true_and, State.irq]
  · exact (Bool.and_assoc ..).symm
  · exact s.irq_unlessBusy_accept v
  · have hoff : off ∉ [0x000#12, 0x004#12, 0x008#12] := by
      intro hmem
      simp only [List.mem_cons, List.not_mem_nil, or_false] at hmem
      rcases hmem with rfl | rfl | rfl <;> simp [inRxbuf, writableRegisters] at hother
    rw [s.irqAfterWrite_of_other v hoff]
    rcases hother with ⟨-, rfl⟩ | ⟨-, rfl⟩ | ⟨-, rfl⟩ | ⟨-, rfl⟩ | ⟨-, rfl⟩ | ⟨-, rfl⟩ | ⟨-, rfl⟩ | ⟨-, rfl⟩ |
      ⟨-, -, rfl⟩ <;> simp [State.irq]

/-- `irqAfter` is the whole of what a step does to `irq`. -/
theorem step_irq {s t : State} (h : step s = .next t) : t.irq = s.irqAfter s.nextActivity := by
  rcases step_cases h with ⟨w, hact, hexec⟩ | ⟨a, hact, hexec⟩ | ⟨hact, rfl⟩ | ⟨hact, rfl⟩ <;> rw [hact]
  · exact exec_command_irq (s := s.takeEvent) hexec
  · exact exec_access_irq (s := s.takeEvent) hexec
  · exact s.takeEvent.resetCore_atResetValues.irq_eq_false
  · rfl

/-! ## Where it falls and where it rises -/

section
variable {s : State}

theorem State.irq_eq_true_iff : s.irq = true ↔ s.irqEn = true ∧ s.done = true :=
  Bool.and_eq_true_iff

/-- The writes at which a raised `irq` falls. -/
theorem State.irqAfterWrite_eq_false_iff (h : s.irq = true) (off : Offset) (v : Word) :
    s.irqAfterWrite off v = false ↔
      (v.getLsbD 1 = true ∧ off = 0x004#12) ∨ (s.busy = false ∧ off = 0x008#12) ∨
      ((v.getLsbD 1 = false ∨ v.getLsbD 0 = true) ∧ off = 0x000#12) := by
  obtain ⟨-, hdone⟩ := State.irq_eq_true_iff.1 h
  unfold State.irqAfterWrite
  split_ifs with hctrl hstatus hcmd
  · cases v.getLsbD 0 <;> simp [hctrl, hdone]
  · simp [hstatus, h]
  · simp [hcmd, h]
  · simp [hctrl, hstatus, hcmd, h]

/-- The writes at which a low `irq` rises. -/
theorem State.irqAfterWrite_eq_true_iff (h : s.irq = false) (off : Offset) (v : Word) :
    s.irqAfterWrite off v = true ↔
      v.getLsbD 0 = false ∧ v.getLsbD 1 = true ∧ s.done = true ∧ off = 0x000#12 := by
  unfold State.irqAfterWrite
  split_ifs with hctrl hstatus hcmd
  · simp [hctrl, and_assoc]
  all_goals simp [hctrl, h]

/-- The activities at which a raised `irq` falls. -/
theorem State.irqAfter_eq_false_iff (h : s.irq = true) (act : Activity) :
    s.irqAfter act = false ↔
      (∃ v, v.getLsbD 1 = true ∧ act = .run (.access (.write 0x004#12 .w32 v))) ∨
      (∃ w, s.busy = false ∧ act = .run (.access (.write 0x008#12 .w32 w))) ∨
      (∃ v, (v.getLsbD 1 = false ∨ v.getLsbD 0 = true) ∧ act = .run (.access (.write 0x000#12 .w32 v))) ∨
      act = .reset := by
  obtain ⟨hen, -⟩ := State.irq_eq_true_iff.1 h
  rcases act with (w | ⟨off, width⟩ | ⟨off, width, v⟩) | _ | _
  case run.command => simp [State.irqAfter, hen]
  case run.access.read => simp [State.irqAfter, State.irqAfterAccess, h]
  case run.access.write =>
    cases width with
    | w32 => simp [State.irqAfter, State.irqAfterAccess, State.irqAfterWrite_eq_false_iff h]
    | _ => simp [State.irqAfter, State.irqAfterAccess, h]
  case reset => simp [State.irqAfter]
  case idle => simp [State.irqAfter, h]

/-- The activities at which a low `irq` rises. -/
theorem State.irqAfter_eq_true_iff (h : s.irq = false) (act : Activity) :
    s.irqAfter act = true ↔
      (∃ w, s.irqEn = true ∧ act = .run (.command w)) ∨
      (∃ v, v.getLsbD 0 = false ∧ v.getLsbD 1 = true ∧ s.done = true ∧
        act = .run (.access (.write 0x000#12 .w32 v))) := by
  rcases act with (w | ⟨off, width⟩ | ⟨off, width, v⟩) | _ | _
  case run.command => simp [State.irqAfter]
  case run.access.read => simp [State.irqAfter, State.irqAfterAccess, h]
  case run.access.write =>
    cases width with
    | w32 => simp [State.irqAfter, State.irqAfterAccess, State.irqAfterWrite_eq_true_iff h]
    | _ => simp [State.irqAfter, State.irqAfterAccess, h]
  case reset => simp [State.irqAfter]
  case idle => simp [State.irqAfter, h]

end

/-- Settles O14: the step's activity decides `irq`, and the statement lists where `irqAfter` differs from `irq`. -/
theorem irqFallsAndRisesOnlyByItsEvents : Obligations.IrqFallsAndRisesOnlyByItsEvents := by
  intro s t hstep
  rw [step_irq hstep]
  exact ⟨fun hirq => State.irqAfter_eq_false_iff hirq _, fun hirq => State.irqAfter_eq_true_iff hirq _⟩

end Sys2Proof.Machine
end

section
/-! PROOFS. The decoder and the encoder (30_encoding.md R90 to R95; 10_state.md R23; 20_memory.md R64): each undoes the
other. -/

namespace Sys2Proof

/-- The words that are not legal are the ones given to the illegal command (R95). -/
theorem decodeCommand_illegal_iff_not_legal (w : Word) :
    decodeCommand w = .illegalCommand w ↔ legalCommand w = false := by
  rw [decodeCommand_eq_illegalCommand_iff, ← legalCommand_iff_mem_legalWords, Bool.not_eq_true]

/-- An offset in RXBUF is that of no writable register, so its write is an RXBUF write (R121). -/
theorem decode_write_of_inRxbuf {off : Offset} (v : Word) (ha : wordAligned off = true) (hbuf : inRxbuf off = true) :
    decode (.access (.write off .w32 v)) = .wrRxbuf (off.extractLsb' 0 8) v := by
  have hlow := (Machine.inRxbuf_iff off).1 hbuf
  have hreg := not_mem_writableRegisters (off := off) (by omega)
  simp only [writableRegisters, List.mem_cons, List.not_mem_nil, or_false, not_or] at hreg
  rw [decode, decodeAccess_write v ha]
  simp only [decodeWrite, hreg, hbuf, if_true, if_false]

/-- RXBUF begins at a multiple of 4, so that an offset in it is aligned as its low byte is (R64, R65). -/
theorem wordAligned_rxbufOffset_iff (k : Byte) : wordAligned (rxbufOffset k) = true ↔ k.toNat % 4 = 0 := by
  rw [Machine.wordAligned_iff, Machine.rxbufOffset_toNat]
  omega

theorem byte_aligned_iff (k : Byte) : (k.extractLsb' 0 2 == 0#2) = true ↔ k.toNat % 4 = 0 := by
  simp [← BitVec.toNat_inj, BitVec.extractLsb'_toNat]

/-- Settles O1: the command words and the register writes decode by evaluation; the rows with an operand in their
pattern need what well-formedness says of it. -/
theorem decodeOfEncodeIsTheInstruction : Obligations.DecodeOfEncodeIsTheInstruction := by
  intro i hwf
  cases i with
  | illegalCommand w =>
      exact (decodeCommand_illegal_iff_not_legal w).2 (by simpa [Instr.wellFormed] using hwf)
  | wrRxbuf k v =>
    have haligned : wordAligned (rxbufOffset k) = true :=
      (wordAligned_rxbufOffset_iff k).2 ((byte_aligned_iff k).1 hwf)
    rw [encode, wr, decode_write_of_inRxbuf v haligned (Machine.inRxbuf_rxbufOffset k), Machine.low_rxbufOffset]
  | wrRoOrReserved off v =>
    simp only [Instr.wellFormed, Bool.and_eq_true, Bool.not_eq_true', List.contains_eq_mem, decide_eq_false_iff_not]
      at hwf
    obtain ⟨⟨haligned, hreg⟩, hbuf⟩ := hwf
    exact decode_write_of_not_writable v ((Machine.wordAligned_iff off).1 haligned) hreg
      (mt (Machine.inRxbuf_iff off).2 (by simp [hbuf]))
  | rdName off => exact decodeAccess_read hwf
  | busError a => exact decodeAccess_illegal (by simpa [Instr.wellFormed] using hwf)
  | _ => rfl

/-- A command word decodes to a well-formed instruction that encodes as it. -/
theorem encode_decodeCommand (w : Word) :
    (decodeCommand w).wellFormed = true ∧ encode (decodeCommand w) = .command w := by
  rcases decodeCommand_cases w with ⟨rfl, e⟩ | ⟨rfl, e⟩ | ⟨rfl, e⟩ | ⟨rfl, e⟩ | ⟨rfl, e⟩ | ⟨rfl, e⟩ | ⟨rfl, e⟩ |
    ⟨rfl, e⟩ | ⟨rfl, e⟩ | e <;> rw [e]
  any_goals exact ⟨rfl, rfl⟩
  exact ⟨by simp [Instr.wellFormed, (decodeCommand_illegal_iff_not_legal w).1 e], rfl⟩

/-- An aligned 32-bit write decodes to a well-formed instruction that encodes as it. -/
theorem encode_decodeWrite {off : Offset} (v : Word) (ha : wordAligned off = true) :
    (decodeWrite off v).wellFormed = true ∧ encode (decodeWrite off v) = .access (.write off .w32 v) := by
  rcases decodeWrite_cases off v with ⟨rfl, e⟩ | ⟨rfl, e⟩ | ⟨rfl, e⟩ | ⟨rfl, e⟩ | ⟨rfl, e⟩ | ⟨rfl, e⟩ | ⟨rfl, e⟩ |
    ⟨rfl, e⟩ | ⟨rfl, e⟩ | ⟨rfl, e⟩ | ⟨hbuf, e⟩ | ⟨hreg, hbuf, e⟩ <;> rw [e]
  any_goals exact ⟨rfl, rfl⟩
  · have hoff := Machine.rxbufOffset_low hbuf
    refine ⟨(byte_aligned_iff _).2 ((wordAligned_rxbufOffset_iff _).1 (by rwa [hoff])), ?_⟩
    rw [encode, hoff, wr]
  · exact ⟨by simp [Instr.wellFormed, ha, hreg, hbuf], rfl⟩

/-- An access, legal or not, decodes to a well-formed instruction that encodes as it. -/
theorem encode_decodeAccess (a : HostAccess) :
    (decodeAccess a).wellFormed = true ∧ encode (decodeAccess a) = .access a := by
  cases hlegal : a.legal with
  | false =>
    rw [decodeAccess_illegal hlegal]
    exact ⟨by simp [Instr.wellFormed, hlegal], rfl⟩
  | true =>
    cases a with
    | read off width =>
      obtain ⟨rfl, ha⟩ := (HostAccess.legal_read off width).1 hlegal
      have ha := (Machine.wordAligned_iff off).2 ha
      rw [decodeAccess_read ha]
      exact ⟨ha, rfl⟩
    | write off width v =>
      obtain ⟨rfl, ha⟩ := (HostAccess.legal_write off width v).1 hlegal
      have ha := (Machine.wordAligned_iff off).2 ha
      rw [decodeAccess_write v ha]
      exact encode_decodeWrite v ha

/-- Settles O2: a cycle is a command word or an access, and each has its lemma. -/
theorem encodeOfDecodeIsTheCycle : Obligations.EncodeOfDecodeIsTheCycle
  | .command w => encode_decodeCommand w
  | .access a => encode_decodeAccess a

/-- Settles O5: the decoder evaluates on each word and access. -/
theorem writtenOutWordsDecode : Obligations.WrittenOutWordsDecode :=
  ⟨rfl, rfl, rfl, rfl, rfl, rfl, rfl, rfl, rfl, rfl, rfl, rfl, rfl, rfl⟩

end Sys2Proof
end

section
/-! PROOFS. Steps (40_command_interface.md R120, R126; 60_exceptions.md R245; 70_reset_and_hazards.md R270): what the
head of the agenda makes of a step, and which steps fault. -/

namespace Sys2Proof.Machine

theorem State.takeEvent_of_cons {s : State} {e : Event} {rest : List Event} (h : s.agenda = e :: rest) :
    s.takeEvent = { s with agenda := rest } := by
  rw [State.takeEvent, h, List.tail_cons]

/-- With an access at the head of the agenda a step carries it out (R120). -/
theorem step_access {s : State} {a : HostAccess} {rest : List Event} (h : s.agenda = .access a :: rest) :
    step s = exec (decode (.access a)) { s with agenda := rest } := by
  simp only [step, nextActivity_access h, State.takeEvent_of_cons h]

/-- The two agendas that leave the step to the Engine (R71, R127). -/
theorem nextActivity_of_engineTurn {s : State} (h : s.agenda.head?.getD .engine = .engine) :
    s.nextActivity = s.engineActivity := by
  unfold State.nextActivity
  split
  case h_1 => rfl
  case h_3 => rfl
  all_goals simp_all

/-- The Engine's turn runs the pending command (R126). -/
theorem step_engine_of_pending {s : State} {w : Word} (hturn : s.agenda.head?.getD .engine = .engine)
    (hbusy : s.busy = true) (hpend : s.pend = some w) : step s = exec (decode (.command w)) s.takeEvent := by
  have hact : s.nextActivity = .run (.command w) := by
    rw [nextActivity_of_engineTurn hturn, State.engineActivity, State.engineCommand, hbusy, if_pos rfl, hpend]
  simp only [step, hact]

/-- The Engine's turn leaves an idle core as it is (R126). -/
theorem step_engine_of_idle {s : State} (hturn : s.agenda.head?.getD .engine = .engine) (hidle : s.busy = false) :
    step s = .next s.takeEvent := by
  have hact : s.nextActivity = .idle := by
    rw [nextActivity_of_engineTurn hturn, State.engineActivity, State.engineCommand, hidle]
    rfl
  simp only [step, hact]

/-- Settles O6: the agenda's head decides whose turn it is, and an empty agenda gives it to the Engine. -/
theorem stepRunsTheDecodedInstruction : Obligations.StepRunsTheDecodedInstruction := by
  intro s i rest
  refine ⟨?access, fun w hbusy hpend => ?command, fun hidle => ⟨fun h => ?skipped, fun h => ?still⟩, fun h => ?reset⟩
  case access =>
    rintro a h rfl
    exact step_access h
  case command =>
    rintro rfl
    refine ⟨fun h => ?_, fun h => ?_⟩
    · rw [step_engine_of_pending (by simp [h]) hbusy hpend, State.takeEvent_of_cons h]
    · rw [step_engine_of_pending (by simp [h]) hbusy hpend, State.takeEvent_of_nil h]
  case skipped => rw [step_engine_of_idle (by simp [h]) hidle, State.takeEvent_of_cons h]
  case still => rw [step_engine_of_idle (by simp [h]) hidle, State.takeEvent_of_nil h]
  case reset =>
    exact ⟨_, step_hardwareReset h, s.takeEvent.resetCore_atResetValues, by simp [h], rfl, rfl⟩

/-- Settles O43: both resets are `resetCore`, which lists no byte, raises the epoch and keeps the outside world. -/
theorem resetsFreeTheBuffersAndKeepTheOutsideWorld : Obligations.ResetsFreeTheBuffersAndKeepTheOutsideWorld := by
  refine fun s v rest => ⟨fun hsrst => ?soft, fun h => ?hardware⟩
  case soft => exact ⟨_, exec_wrCtrl_of_srst hsrst s, rfl, s.byteAt_resetCore, rfl, rfl, rfl⟩
  case hardware => exact ⟨_, step_hardwareReset h, rfl, s.takeEvent.byteAt_resetCore, by simp [h], rfl, rfl⟩

/-! ## Faults -/

/-- An access is illegal by its width or by its offset, whether it reads or writes (R64). -/
theorem legal_eq_false_iff (a : HostAccess) :
    a.legal = false ↔ ∃ off width, (width ≠ .w32 ∨ off.toNat % 4 ≠ 0) ∧
      (a = .read off width ∨ ∃ v, a = .write off width v) := by
  rw [← Bool.not_eq_true]
  cases a with
  | read off width => simp [HostAccess.legal_read, imp_iff_not_or]
  | write off width v => simp [HostAccess.legal_write, imp_iff_not_or]

/-- A step faults only by an illegal access at the head of the agenda (R245). -/
theorem step_eq_fault_iff {s : State} {f : Fault} :
    step s = .fault f ↔ ∃ a rest, s.agenda = .access a :: rest ∧ f = .busError a ∧ a.legal = false := by
  constructor
  case mpr =>
    rintro ⟨a, rest, h, rfl, hillegal⟩
    rw [step_access h, decode, decodeAccess_illegal hillegal]
    rfl
  case mp =>
    intro h
    unfold step at h
    split at h
    case h_1 c hact =>
      obtain ⟨b, hdec, rfl⟩ := exec_eq_fault h
      cases c with
      | command w => exact absurd hdec (decodeCommand_ne_busError w b)
      | access a =>
        obtain ⟨rest, hagenda⟩ := agenda_of_nextActivity hact
        have hillegal : a.legal = false :=
          Bool.eq_false_iff.2 fun hlegal => decodeAccess_ne_busError hlegal b hdec
        rw [decode, decodeAccess_illegal hillegal, Instr.busError.injEq] at hdec
        subst hdec
        exact ⟨a, rest, hagenda, rfl, hillegal⟩
    all_goals exact nomatch h

/-- Settles O9: the illegal accesses are the ones of the wrong width or alignment, and only they fault. -/
theorem stepFaultsExactlyOnBusError : Obligations.StepFaultsExactlyOnBusError := by
  refine fun s => ⟨fun f => ?_, step_ne_refused s, fun a => rfl⟩
  simp only [step_eq_fault_iff, legal_eq_false_iff]

end Sys2Proof.Machine
end

section
/-! PROOFS. The invariant (10_state.md sections 3 to 7): it holds after reset and every step keeps it. -/

namespace Sys2Proof.Machine

/-- Settles O7: at the values of R44 nothing is listed, pending or queued. -/
theorem resetMeetsTheInvariant : Obligations.ResetMeetsTheInvariant := by
  constructor <;> simp [State.reset, Memory.wf]

/-- A write of fields the invariant does not speak of keeps it, as long as it does not set DONE. -/
theorem State.Inv.of_frame {s t : State} (h : s.Inv)
    (ht : t = { s with
      irqEn := t.irqEn, done := t.done, ign := t.ign, slave := t.slave, arg0 := t.arg0, arg1 := t.arg1,
      crcAcc := t.crcAcc, readData := t.readData, draws := t.draws })
    (hdone : s.done = false → t.done = false) : t.Inv := by
  rw [ht]
  exact { h with notDoneWhileBusy := fun hbusy => hdone (h.notDoneWhileBusy hbusy) }

/-- An acceptance makes the command pending and clears DONE (R123). -/
theorem State.inv_accept {s : State} (h : s.Inv) (w : Word) : (s.accept w).Inv :=
  { h with pendingWhileBusy := rfl, notDoneWhileBusy := fun _ => rfl }

/-- RX_LEN keeps at most 256 of what is written (R30). -/
theorem State.inv_rxLen {s : State} (h : s.Inv) (v : Word) : State.Inv { s with rxLen := rxLenField v } :=
  { h with rxLenBound := by rw [rxLenField_toNat]; exact Nat.min_le_right .. }

/-- RX_LEN leaves room for at most 125 registers in a response that parses well (R204, R216). -/
theorem State.Inv.arg1_le_of_good {s : State} (h : s.Inv)
    (hgood : parseCode fcReadHolding s.rxByte s.rxLen.toNat s.arg1.toNat s.slave = .none) : s.arg1.toNat ≤ 125 := by
  have hlen := rhr_length hgood
  have hcap : s.rxLen.toNat ≤ 256 := h.rxLenBound
  omega

/-- Q's bound keeps a 0x10 request, with its CRC, at 255 bytes, the most TX_LEN holds (R36, R102). -/
theorem State.Inv.multiRequest_length_le {s : State} (h : s.Inv) :
    (multiRequest s.slave s.arg0 s.arg1 s.fifo).length ≤ 253 := by
  have hq : s.fifo.length ≤ 123 := h.fifoBound
  rw [multiRequest_length]
  omega

/-- Every end of a command keeps the invariant. -/
theorem exec_command_inv {s t : State} {w : Word} (h : s.Inv) (hexec : exec (decodeCommand w) s = .next t) :
    t.Inv := by
  have short_fits (f : Byte) : (shortRequest s.slave f s.arg0 s.arg1).length ≤ 253 := by simp
  rcases exec_command_cases hexec with ⟨code, exc, r0, r1, rfl, hexc, hres⟩ | ⟨-, -, rfl⟩ | ⟨-, -, rfl⟩ | ⟨-, rfl⟩ |
    ⟨-, -, rfl⟩ | ⟨-, -, rfl⟩ | ⟨-, hgood, rfl⟩ | ⟨-, rfl⟩
  · exact State.inv_complete h code exc r0 r1 hexc hres
  · exact State.inv_emit h _ (short_fits _)
  · exact State.inv_buildFail h
  · exact State.inv_emit h _ (short_fits _)
  · exact State.inv_emit (State.inv_clearFifo h) _ h.multiRequest_length_le
  · exact State.inv_buildFail (State.inv_clearFifo h)
  · exact State.inv_readSuccess h (h.arg1_le_of_good hgood)
  · exact State.inv_complete (State.inv_clearFifo h) _ _ _ _ (by simp) (by simp)

/-- Every access that is carried out keeps the invariant. -/
theorem exec_access_inv {s t : State} {a : HostAccess} (h : s.Inv) (hexec : exec (decodeAccess a) s = .next t) :
    t.Inv := by
  rcases exec_access_cases hexec with ⟨_, rfl, -, _, rfl⟩ | ⟨off, v, rfl, halign, hwrite⟩
  · exact h.of_frame rfl id
  rcases hwrite with ⟨-, -, rfl⟩ | ⟨-, -, rfl⟩ | ⟨-, rfl⟩ | ⟨-, rfl⟩ | ⟨-, rfl⟩ | ⟨-, rfl⟩ | ⟨-, rfl⟩ | ⟨-, rfl⟩ |
    ⟨-, rfl⟩ | ⟨-, rfl⟩ | ⟨-, rfl⟩ | ⟨hbuf, rfl⟩ | ⟨-, -, rfl⟩
  · exact s.inv_resetCore
  · exact h.of_frame rfl id
  · exact h.of_frame rfl fun hdone => by simp [clearIf, hdone]
  · exact State.inv_unlessBusy h fun _ => State.inv_accept h v
  · exact State.inv_unlessBusy h fun _ => h.of_frame rfl id
  · exact State.inv_unlessBusy h fun _ => h.of_frame rfl id
  · exact State.inv_unlessBusy h fun _ => h.of_frame rfl id
  · exact State.inv_unlessBusy h fun _ => State.inv_rxLen h v
  · exact h.of_frame rfl id
  · exact h.of_frame rfl id
  · exact State.inv_unlessBusy h fun _ => State.inv_pushValue h _
  · have hk : (off.extractLsb' 0 8).toNat % 4 = 0 := by
      rwa [← wordAligned_rxbufOffset_iff, rxbufOffset_low hbuf]
    exact State.inv_unlessBusy h fun _ => State.inv_storeWord h _ (by omega) v
  · exact h

/-- Settles O8: commands, accesses, resets and idle steps each keep the invariant. -/
theorem stepKeepsTheInvariant : Obligations.StepKeepsTheInvariant := by
  intro s t h hstep
  rcases step_cases hstep with ⟨w, -, hexec⟩ | ⟨a, -, hexec⟩ | ⟨-, rfl⟩ | ⟨-, rfl⟩
  · exact exec_command_inv (State.inv_takeEvent h) hexec
  · exact exec_access_inv (State.inv_takeEvent h) hexec
  · exact s.takeEvent.inv_resetCore
  · exact State.inv_takeEvent h

end Sys2Proof.Machine
end

section
/-! PROOFS. Runs (40_command_interface.md R127; 92_eei_decisions.md D24): they go on while the accesses are legal, and a
pending command ends within the agenda. -/

namespace Sys2Proof.Machine

/-- Legal accesses at the head of the agenda answer a next state, and the rest of the agenda is as legal. -/
theorem State.LegalAgenda.step_completes {s : State} (h : s.LegalAgenda) : ∃ t, step s = .next t ∧ t.LegalAgenda := by
  cases hstep : step s with
  | next t =>
    refine ⟨t, rfl, fun a ha => h a ?_⟩
    rw [agenda_of_step hstep] at ha
    exact List.mem_of_mem_tail ha
  | fault f =>
    obtain ⟨a, rest, hagenda, -, hillegal⟩ := step_eq_fault_iff.1 hstep
    have hlegal := h a (by simp [hagenda])
    simp [hillegal] at hlegal
  | refused r => exact absurd hstep (step_ne_refused s r)

/-- Settles O10, by induction on the number of steps. -/
theorem legalAccessesRunForever : Obligations.LegalAccessesRunForever := by
  intro s h k
  induction k generalizing s with
  | zero => exact ⟨s, rfl⟩
  | succ k ih =>
    obtain ⟨t, hstep, ht⟩ := h.step_completes
    rw [run_succ_of_step hstep]
    exact ih t ht

/-- With no event left, the step of a busy core ends its command (log entry 2). -/
theorem State.Inv.idle_after_empty_agenda {s t : State} (h : s.Inv) (hbusy : s.busy = true) (hagenda : s.agenda = [])
    (hstep : step s = .next t) : t.busy = false := by
  obtain ⟨w, hpend⟩ := Option.isSome_iff_exists.1 (h.pendingWhileBusy.trans hbusy)
  rw [step_engine_of_pending (by simp [hagenda]) hbusy hpend] at hstep
  exact exec_command_idle hstep

/-- Settles O11, by induction on the agenda: a step that leaves the core busy takes an event off. -/
theorem pendingCommandEndsWithinTheAgenda : Obligations.PendingCommandEndsWithinTheAgenda := by
  intro s hinv hbusy hlegal
  induction hlen : s.agenda.length generalizing s with
  | zero =>
    obtain ⟨t, hstep, -⟩ := hlegal.step_completes
    exact ⟨1, t, le_rfl, run_succ_of_step hstep,
      hinv.idle_after_empty_agenda hbusy (List.eq_nil_of_length_eq_zero hlen) hstep⟩
  | succ n ih =>
    obtain ⟨u, hstep, hu⟩ := hlegal.step_completes
    cases hub : u.busy with
    | false => exact ⟨1, u, by omega, run_succ_of_step hstep, hub⟩
    | true =>
      have hrest : u.agenda.length = n := by rw [agenda_of_step hstep, List.length_tail, hlen, Nat.add_sub_cancel]
      obtain ⟨k, t, hk, hrun, ht⟩ := ih u (stepKeepsTheInvariant s u hinv hstep) hub hu hrest
      exact ⟨k + 1, t, by omega, (run_succ_of_step hstep).trans hrun, ht⟩

/-- While busy, the only access that ends the command is the soft reset (R133, R271). -/
theorem softReset_of_exec_access_idle {s t : State} {a : HostAccess} (hbusy : s.busy = true)
    (h : exec (decodeAccess a) s = .next t) (hidle : t.busy = false) :
    ∃ v, v.getLsbD 0 = true ∧ a = .write 0x000#12 .w32 v := by
  rcases exec_access_cases h with ⟨_, rfl, -, _, rfl⟩ | ⟨off, v, rfl, -, hwrite⟩
  · exact absurd hidle (by simp [hbusy])
  · simp only [State.unlessBusy_of_busy _ hbusy] at hwrite
    rcases hwrite with ⟨rfl, hsrst, -⟩ | ⟨-, -, rfl⟩ | ⟨-, rfl⟩ | ⟨-, rfl⟩ | ⟨-, rfl⟩ | ⟨-, rfl⟩ | ⟨-, rfl⟩ | ⟨-, rfl⟩ |
      ⟨-, rfl⟩ | ⟨-, rfl⟩ | ⟨-, rfl⟩ | ⟨-, rfl⟩ | ⟨-, -, rfl⟩
    case inl => exact ⟨v, hsrst, rfl⟩
    all_goals exact absurd hidle (by simp [hbusy])

/-- Settles O13: a command runs only from PEND, a reset is itself the second case, and an access that ends the command
is a soft reset. -/
theorem onlyCompletionOrResetEndsACommand : Obligations.OnlyCompletionOrResetEndsACommand := by
  intro s t hbusy hstep hidle
  rcases step_cases hstep with ⟨w, hact, -⟩ | ⟨a, hact, hexec⟩ | ⟨hact, -⟩ | ⟨-, rfl⟩
  · exact .inl ⟨w, (pending_of_nextActivity hact).2, hact⟩
  · obtain ⟨v, hsrst, rfl⟩ := softReset_of_exec_access_idle (s := s.takeEvent) hbusy hexec hidle
    exact .inr (.inr ⟨v, hsrst, hact⟩)
  · exact .inr (.inl hact)
  · exact absurd hidle (by simp [hbusy])

end Sys2Proof.Machine
end

section
/-! PROOFS. Who writes what: the bytes of the buffers (10_state.md R37 to R39), Q and WOVF (R40), and the registers every
command writes (40_command_interface.md R128). -/

namespace Sys2Proof.Machine

/-! ## The bytes of the buffers -/

section
variable {s t : State} {a : Nat}

/-- A byte that an emission changes lies in the frame it leaves (R171). -/
theorem State.inside_frame_of_byteAt_emit_ne {body : List Byte} (hfits : body.length + 2 < 512)
    (hne : (s.emit body).byteAt a ≠ s.byteAt a) : 0x100 ≤ a ∧ a < 0x100 + (s.emit body).txLen.toNat := by
  have htx : (s.emit body).txLen.toNat = body.length + 2 := by
    rw [State.emit_txLen, appendCrc_length, BitVec.toNat_ofNat, Nat.mod_eq_of_lt hfits]
  have hinside := mt s.byteAt_emit_of_outside hne
  omega

/-- A byte that storing a bus word changes is one of its four (R65). -/
theorem State.inside_word_of_byteAt_storeWord_ne {base : Nat} {v : Word}
    (hne : (s.storeWord base v).byteAt a ≠ s.byteAt a) : base ≤ a ∧ a < base + 4 := by
  by_contra houtside
  exact hne ((s.byteAt_storeWord base v a).trans (if_pos (by omega)))

/-- A guarded write that changes a byte was made while idle and changes it itself (R124). -/
theorem unlessBusy_byteAt_ne (hne : (s.unlessBusy t).byteAt a ≠ s.byteAt a) :
    s.busy = false ∧ t.byteAt a ≠ s.byteAt a := by
  rcases s.unlessBusy_cases t with ⟨-, e⟩ | ⟨hidle, e⟩ <;> rw [e] at hne
  · exact absurd rfl hne
  · exact ⟨hidle, hne⟩

theorem State.byteAt_pushValue (s : State) (x : Half) (a : Nat) : (s.pushValue x).byteAt a = s.byteAt a :=
  State.byteAt_congr (s.pushValue_mem x) (s.pushValue_epoch x) a

/-- The bytes that the Engine's step can change: a frame in TXBUF, registers in RDATA (R170, R216). -/
theorem exec_command_changes_byte {w : Word} (hinv : s.Inv) (h : exec (decodeCommand w) s = .next t)
    (hne : t.byteAt a ≠ s.byteAt a) :
    (w ∈ [0x00000303#32, 0x00000603#32, 0x00001003#32] ∧ t.errCode = .none ∧
      0x100 ≤ a ∧ a < 0x100 + t.txLen.toNat) ∨
    (w = 0x00000304#32 ∧ t.errCode = .none ∧ 0x300 ≤ a ∧ a < 0x300 + 4 * s.arg1.toNat ∧ s.arg1.toNat ≤ 125) := by
  have short_fits (f : Byte) : (shortRequest s.slave f s.arg0 s.arg1).length + 2 < 512 := by simp
  rcases exec_command_cases h with ⟨_, _, _, _, rfl, -⟩ | ⟨rfl, -, rfl⟩ | ⟨-, -, rfl⟩ | ⟨rfl, rfl⟩ | ⟨rfl, -, rfl⟩ |
    ⟨-, -, rfl⟩ | ⟨rfl, hgood, rfl⟩ | ⟨-, rfl⟩
  · exact absurd rfl hne
  · exact .inl ⟨by simp, rfl, State.inside_frame_of_byteAt_emit_ne (short_fits _) hne⟩
  · exact absurd rfl hne
  · exact .inl ⟨by simp, rfl, State.inside_frame_of_byteAt_emit_ne (short_fits _) hne⟩
  · have hlen := hinv.multiRequest_length_le
    exact .inl ⟨by simp, rfl, State.inside_frame_of_byteAt_emit_ne (s := s.clearFifo) (by omega) hne⟩
  · exact absurd rfl hne
  · have hinside := mt (s.byteAt_readSuccess a) hne
    exact .inr ⟨rfl, rfl, by omega, by omega, hinv.arg1_le_of_good hgood⟩
  · exact absurd rfl hne

/-- The bytes that an access can change: all by the soft reset, four of RXBUF by an idle write (R131, R271). -/
theorem exec_access_changes_byte {b : HostAccess} (h : exec (decodeAccess b) s = .next t)
    (hne : t.byteAt a ≠ s.byteAt a) :
    (∃ v, v.getLsbD 0 = true ∧ b = .write 0x000#12 .w32 v) ∨
    ∃ off v, b = .write off .w32 v ∧ wordAligned off = true ∧ inRxbuf off = true ∧ s.busy = false ∧
      0x200 + (off.extractLsb' 0 8).toNat ≤ a ∧ a < 0x200 + (off.extractLsb' 0 8).toNat + 4 := by
  rcases exec_access_cases h with ⟨_, rfl, -, _, rfl⟩ | ⟨off, v, rfl, halign, hwrite⟩
  · exact absurd rfl hne
  rcases hwrite with ⟨rfl, hsrst, -⟩ | ⟨-, -, rfl⟩ | ⟨-, rfl⟩ | ⟨-, rfl⟩ | ⟨-, rfl⟩ | ⟨-, rfl⟩ | ⟨-, rfl⟩ | ⟨-, rfl⟩ |
    ⟨-, rfl⟩ | ⟨-, rfl⟩ | ⟨-, rfl⟩ | ⟨hbuf, rfl⟩ | ⟨-, -, rfl⟩
  · exact .inl ⟨v, hsrst, rfl⟩
  · exact absurd rfl hne
  · exact absurd rfl hne
  · exact absurd rfl (unlessBusy_byteAt_ne hne).2
  · exact absurd rfl (unlessBusy_byteAt_ne hne).2
  · exact absurd rfl (unlessBusy_byteAt_ne hne).2
  · exact absurd rfl (unlessBusy_byteAt_ne hne).2
  · exact absurd rfl (unlessBusy_byteAt_ne hne).2
  · exact absurd rfl hne
  · exact absurd rfl hne
  · exact absurd (s.byteAt_pushValue _ a) (unlessBusy_byteAt_ne hne).2
  · obtain ⟨hidle, hne⟩ := unlessBusy_byteAt_ne hne
    exact .inr ⟨off, v, rfl, halign, hbuf, hidle, State.inside_word_of_byteAt_storeWord_ne hne⟩
  · exact absurd rfl hne

/-- Settles O15: a well-formed instruction is what its cycle decodes to, and each kind of cycle has its writers. -/
theorem bufferBytesHaveTheirWritersOnly : Obligations.BufferBytesHaveTheirWritersOnly := by
  intro s t i a hinv hwf hexec hne
  have hdec := decodeOfEncodeIsTheInstruction i hwf
  rw [← hdec] at hexec
  cases hcycle : encode i with
  | command w =>
    rw [hcycle] at hdec hexec
    rcases exec_command_changes_byte hinv hexec hne with ⟨hbuild, hframe⟩ | ⟨rfl, hrdata⟩
    · have hi : i = .buildRhr ∨ i = .buildWsr ∨ i = .buildWmr := by
        simp only [List.mem_cons, List.not_mem_nil, or_false] at hbuild
        rw [← hdec]
        exact hbuild.imp (congrArg decodeCommand) (.imp (congrArg decodeCommand) (congrArg decodeCommand))
      exact .inr (.inl ⟨hi, hframe⟩)
    · exact .inr (.inr (.inr ⟨hdec.symm, hrdata⟩))
  | access b =>
    rw [hcycle] at hdec hexec
    rcases exec_access_changes_byte hexec hne with ⟨v, hsrst, rfl⟩ | ⟨off, v, rfl, halign, hbuf, hidle, hinside⟩
    · exact .inl ⟨v, hsrst, hdec.symm⟩
    · rw [decode_write_of_inRxbuf v halign hbuf] at hdec
      exact .inr (.inr (.inl ⟨_, v, hdec.symm, hidle, hinside⟩))

/-! ## Q and WOVF -/

/-- The commands that touch Q empty it (R176, R181). -/
theorem exec_command_fifo {w : Word} (h : exec (decodeCommand w) s = .next t) :
    (t.fifo = s.fifo ∧ t.wovf = s.wovf) ∨
    ((w = 0x00001003#32 ∨ w = 0x00000005#32) ∧ t.fifo = [] ∧ t.wovf = false) := by
  rcases exec_command_cases h with ⟨_, _, _, _, rfl, -⟩ | ⟨-, -, rfl⟩ | ⟨-, -, rfl⟩ | ⟨-, rfl⟩ | ⟨hw, -, rfl⟩ |
    ⟨hw, -, rfl⟩ | ⟨-, -, rfl⟩ | ⟨hw, rfl⟩
  · exact .inl ⟨rfl, rfl⟩
  · exact .inl ⟨rfl, rfl⟩
  · exact .inl ⟨rfl, rfl⟩
  · exact .inl ⟨rfl, rfl⟩
  · exact .inr ⟨.inl hw, rfl, rfl⟩
  · exact .inr ⟨.inl hw, rfl, rfl⟩
  · exact .inl ⟨rfl, rfl⟩
  · exact .inr ⟨.inr hw, rfl, rfl⟩

/-- The accesses that touch Q are the soft reset and an idle push (R180, R271). -/
theorem exec_access_fifo {b : HostAccess} (h : exec (decodeAccess b) s = .next t) :
    (t.fifo = s.fifo ∧ t.wovf = s.wovf) ∨
    (∃ v, v.getLsbD 0 = true ∧ b = .write 0x000#12 .w32 v ∧ t = s.resetCore) ∨
    (∃ v, s.busy = false ∧ b = .write 0x028#12 .w32 v ∧ t = s.pushValue (halfField v)) := by
  rcases exec_access_cases h with ⟨_, rfl, -, _, rfl⟩ | ⟨off, v, rfl, -, hwrite⟩
  · exact .inl ⟨rfl, rfl⟩
  rcases hwrite with ⟨rfl, hsrst, rfl⟩ | ⟨-, -, rfl⟩ | ⟨-, rfl⟩ | ⟨-, rfl⟩ | ⟨-, rfl⟩ | ⟨-, rfl⟩ | ⟨-, rfl⟩ | ⟨-, rfl⟩ |
    ⟨-, rfl⟩ | ⟨-, rfl⟩ | ⟨rfl, rfl⟩ | ⟨-, rfl⟩ | ⟨-, -, rfl⟩
  any_goals (left; simp; done)
  · exact .inr (.inl ⟨v, hsrst, rfl, rfl⟩)
  · rcases s.unlessBusy_cases (s.pushValue (halfField v)) with ⟨-, e⟩ | ⟨hidle, e⟩ <;> rw [e]
    · exact .inl ⟨rfl, rfl⟩
    · exact .inr (.inr ⟨v, hidle, rfl, rfl⟩)

end

/-- Settles O16: of the activities only the two commands, the two resets and an idle push touch Q or WOVF. -/
theorem fifoChangesOnlyByItsOperations : Obligations.FifoChangesOnlyByItsOperations := by
  intro s t hstep hchange
  have touched : ¬(t.fifo = s.fifo ∧ t.wovf = s.wovf) := not_and_or.2 hchange
  rcases step_cases hstep with ⟨w, hact, hexec⟩ | ⟨b, hact, hexec⟩ | ⟨hact, rfl⟩ | ⟨-, rfl⟩
  · rcases exec_command_fifo hexec with hsame | ⟨rfl | rfl, hempty⟩
    · exact absurd hsame touched
    · exact .inr ⟨.inl hact, hempty⟩
    · exact .inr ⟨.inr (.inl hact), hempty⟩
  · rcases exec_access_fifo hexec with hsame | ⟨v, hsrst, rfl, rfl⟩ | ⟨v, hidle, rfl, rfl⟩
    · exact absurd hsame touched
    · exact .inr ⟨.inr (.inr (.inr ⟨v, hsrst, hact⟩)), rfl, rfl⟩
    · refine .inl ⟨v, hidle, hact, ?_⟩
      rcases s.takeEvent.pushValue_cases (halfField v) with ⟨hroom, e⟩ | ⟨hfull, e⟩ <;> rw [e]
      · exact .inl ⟨hroom, rfl, rfl⟩
      · exact .inr ⟨hfull, rfl, rfl⟩
  · exact .inr ⟨.inr (.inr (.inl hact)), rfl, rfl⟩
  · exact absurd ⟨rfl, rfl⟩ touched

/-! ## Completions -/

/-- Settles O17: a command word decodes to no BusError, and each end of a command is a completion. -/
theorem everyCommandWordCompletes : Obligations.EveryCommandWordCompletes := by
  intro s w
  obtain ⟨t, hexec⟩ := exec_completes (decodeCommand_ne_busError w) s
  refine ⟨t, hexec, exec_command_idle hexec, ?_⟩
  have hirq := exec_command_irq hexec
  rcases exec_command_cases hexec with ⟨_, _, _, _, rfl, hexc, hres⟩ | ⟨-, -, rfl⟩ | ⟨-, -, rfl⟩ | ⟨-, rfl⟩ |
    ⟨-, -, rfl⟩ | ⟨-, -, rfl⟩ | ⟨-, -, rfl⟩ | ⟨-, rfl⟩
  case inl => exact ⟨rfl, rfl, hirq, hexc, hres, rfl, rfl, rfl, rfl, rfl⟩
  all_goals exact ⟨rfl, rfl, hirq, by simp, by simp, rfl, rfl, rfl, rfl, rfl⟩

end Sys2Proof.Machine
end

section
/-! PROOFS. A write beside a completion (60_exceptions.md section 4): both orders are agendas of the model. -/

namespace Sys2Proof.Machine

theorem run_two_of_steps {s t u : State} (h₁ : step s = .next t) (h₂ : step t = .next u) : run 2 s = .next u := by
  rw [run_succ_of_step h₁, run_succ_of_step h₂, run]

/-- The Engine's event completes the pending command and touches nothing that the races below speak of (R128). -/
theorem step_engine_completes {s : State} {w : Word} {rest : List Event} (hagenda : s.agenda = .engine :: rest)
    (hbusy : s.busy = true) (hpend : s.pend = some w) :
    ∃ t, step s = .next t ∧ t.busy = false ∧ t.done = true ∧ t.pend = none ∧ t.ign = s.ign ∧ t.agenda = rest := by
  obtain ⟨t, hexec, hidle, hdone, hnone, -, -, -, hign, -, -, -, hrest⟩ := everyCommandWordCompletes s.takeEvent w
  refine ⟨t, ?_, hidle, hdone, hnone, hign, by rw [hrest, State.takeEvent_agenda, hagenda, List.tail_cons]⟩
  rw [step_engine_of_pending (by simp [hagenda]) hbusy hpend]
  exact hexec

/-- A CMD write at the head of the agenda (R122). -/
theorem step_wrCmd {s : State} {v : Word} {rest : List Event}
    (hagenda : s.agenda = .access (.write 0x008#12 .w32 v) :: rest) :
    step s = exec (.wrCmd v) { s with agenda := rest } := step_access hagenda

/-- A STATUS write at the head of the agenda (R132). -/
theorem step_wrStatus {s : State} {v : Word} {rest : List Event}
    (hagenda : s.agenda = .access (.write 0x004#12 .w32 v) :: rest) :
    step s = exec (.wrStatus v) { s with agenda := rest } := step_access hagenda

/-- Settles O50: before the completion the write is dropped with IGN set, after it the core is idle and accepts it. -/
theorem cmdWriteBesideACompletionHasBothOrders : Obligations.CmdWriteBesideACompletionHasBothOrders := by
  intro s w v rest hbusy hpend
  refine ⟨fun hagenda => ?before, fun hagenda => ?after⟩
  case before =>
    obtain ⟨u, hwrite, hu, hbusy, hpend, hset⟩ :
        ∃ u, step s = .next u ∧ u.agenda = .engine :: rest ∧ u.busy = true ∧ u.pend = some w ∧ u.ign = true :=
      ⟨_, (step_wrCmd hagenda).trans ((cmdWriteIsAcceptedOrDropped _ v).2 hbusy), rfl, hbusy, hpend, rfl⟩
    obtain ⟨t, hengine, hidle, hdone, hnone, hign, hrest⟩ := step_engine_completes hu hbusy hpend
    exact ⟨t, run_two_of_steps hwrite hengine, hidle, hdone, hign.trans hset, hnone, hrest⟩
  case after =>
    obtain ⟨u, hengine, hidle, -, -, hign, hrest⟩ := step_engine_completes hagenda hbusy hpend
    have hwrite := (step_wrCmd hrest).trans ((cmdWriteIsAcceptedOrDropped _ v).1 hidle)
    exact ⟨_, run_two_of_steps hengine hwrite, rfl, rfl, hign, rfl, rfl⟩

/-- Settles O58: before the completion the write is overtaken by it, after it the write clears the DONE it set. -/
theorem statusWriteBesideACompletionHasBothOrders : Obligations.StatusWriteBesideACompletionHasBothOrders := by
  intro s w v rest hbusy hpend hclear
  refine ⟨fun hagenda => ?before, fun hagenda => ?after⟩
  case before =>
    obtain ⟨u, hwrite, hu, hbusy, hpend⟩ :
        ∃ u, step s = .next u ∧ u.agenda = .engine :: rest ∧ u.busy = true ∧ u.pend = some w :=
      ⟨_, step_wrStatus hagenda, rfl, hbusy, hpend⟩
    obtain ⟨t, hengine, hidle, hdone, hnone, -, hrest⟩ := step_engine_completes hu hbusy hpend
    exact ⟨t, run_two_of_steps hwrite hengine, hidle, hdone, hnone, hrest⟩
  case after =>
    obtain ⟨u, hengine, hidle, -, hnone, -, hrest⟩ := step_engine_completes hagenda hbusy hpend
    exact ⟨_, run_two_of_steps hengine (step_wrStatus hrest), hidle, clearIf_of_set _ hclear, hnone, rfl⟩

end Sys2Proof.Machine
end

section
/-! PROOFS. The properties of the CRC (41_crc16.md R156): the streaming port, single bits, affinity, the residue. -/

namespace Sys2Proof.Machine

/-! ## The streaming port -/

theorem byteField_setWidth (x : Byte) : byteField (x.setWidth 32) = x := by
  apply BitVec.eq_of_toNat_eq
  have hx := x.isLt
  rw [byteField_toNat, BitVec.toNat_setWidth]
  omega

/-- One feed of each byte folds the sequence into the accumulator (R153). -/
theorem execAll_feed (bytes : List Byte) (s : State) :
    execAll (bytes.map fun x => .feed (x.setWidth 32)) s =
      .next { s with crcAcc := bytes.foldl crcStep s.crcAcc } := by
  induction bytes generalizing s with
  | nil => rfl
  | cons x xs ih =>
    rw [List.map_cons, execAll, exec_feed, byteField_setWidth]
    exact ih _

/-- Settles O24: the write sets the start value of R151, and the feeds fold the bytes. -/
theorem streamingEqualsCrc16 : Obligations.StreamingEqualsCrc16 := by
  intro s bytes
  rw [execAll, exec_wrCrc]
  exact execAll_feed bytes _

/-! ## What a step keeps apart -/

theorem foldl_crcStep_inj (bytes : List Byte) {a b : Half} (h : bytes.foldl crcStep a = bytes.foldl crcStep b) :
    a = b := by
  induction bytes generalizing a b with
  | nil => exact h
  | cons x xs ih => exact crcStep_inj (ih h)

/-- A step loses nothing of the byte (R150). -/
theorem crcStep_byte_inj {c : Half} {x y : Byte} (h : crcStep c x = crcStep c y) : x = y := by
  have hzero : crcStep (c ^^^ c) (x ^^^ y) = 0 := by rw [crcStep_xor, h, BitVec.xor_self]; rfl
  have hwide : (x ^^^ y).setWidth 16 = 0 := by
    have := repeat_crcShift_eq_zero hzero
    rwa [BitVec.xor_self, BitVec.zero_xor] at this
  apply eq_of_xor_eq_zero
  apply BitVec.eq_of_toNat_eq
  have hnum := congrArg BitVec.toNat hwide
  rwa [BitVec.toNat_setWidth_of_le (by decide)] at hnum

/-- A bit flipped in a byte changes the byte. -/
theorem xor_bit_ne (x : Byte) {i : Nat} (h : i < 8) : x ^^^ (1#8 <<< i) ≠ x := by
  have hbit : ∀ j < 8, 1#8 <<< j ≠ 0 := by decide
  exact mt xor_left_eq_self_iff.1 (hbit i h)

/-- Settles O25: the step at the flipped byte tells the two apart, and no later step brings them together again. -/
theorem singleBitFlipChangesTheCrc : Obligations.SingleBitFlipChangesTheCrc := by
  intro pre post x i hi hcrc
  rw [crc16_append, crc16_append, List.foldl_cons, List.foldl_cons] at hcrc
  exact xor_bit_ne x hi (crcStep_byte_inj (foldl_crcStep_inj post hcrc))

/-! ## Affinity -/

/-- The fold is linear in the accumulators and the bytes together; as many zero bytes carry the third accumulator. -/
theorem foldl_crcStep_xor {a b : List Byte} (h : a.length = b.length) (p q r : Half) :
    (List.zipWith (· ^^^ ·) a b).foldl crcStep (p ^^^ q ^^^ r) =
      a.foldl crcStep p ^^^ b.foldl crcStep q ^^^ (List.replicate a.length 0x00#8).foldl crcStep r := by
  induction a generalizing b p q r with
  | nil =>
    obtain rfl := List.eq_nil_of_length_eq_zero h.symm
    rfl
  | cons x xs ih =>
    obtain ⟨y, ys, rfl⟩ := List.exists_cons_of_length_eq_add_one h.symm
    have hstep : crcStep (p ^^^ q ^^^ r) (x ^^^ y) = crcStep p x ^^^ crcStep q y ^^^ crcStep r 0x00#8 := by
      rw [← crcStep_xor, ← crcStep_xor, BitVec.xor_zero]
    rw [List.zipWith_cons_cons, List.length_cons, List.replicate_succ, List.foldl_cons, List.foldl_cons,
      List.foldl_cons, List.foldl_cons, hstep]
    exact ih (Nat.succ.inj h) _ _ _

/-- Settles O26: three start values of 0xFFFF XOR to one. -/
theorem crcIsAffine : Obligations.CrcIsAffine := fun _ _ h => foldl_crcStep_xor h 0xFFFF 0xFFFF 0xFFFF

/-! ## The residue -/

/-- A sequence followed by its CRC, low byte first, has CRC 0 (R156 (e)). -/
theorem crc16_appendCrc (body : List Byte) : crc16 (appendCrc body) = 0 := by
  rw [appendCrc, crc16_append, List.foldl_cons, crcStep_lo8, List.foldl_cons, crcStep_self]
  rfl

/-- Settles O27: the low byte moves the high byte down, and the high byte meets itself. -/
theorem crcResidueIsZero : Obligations.CrcResidueIsZero := crc16_appendCrc

/-- A BUILD that reports no error emitted a frame that fits TX_LEN (R170, R178). -/
theorem exec_build_of_no_error {s t : State} {i : Instr} (hbound : s.fifo.length ≤ 123)
    (hi : i = .buildRhr ∨ i = .buildWsr ∨ i = .buildWmr) (hexec : exec i s = .next t) (hok : t.errCode = .none) :
    ∃ body, t.frame = appendCrc body := by
  have failed {u : State} (h : t = u.buildFail) : False := by simp [h] at hok
  rcases hi with rfl | rfl | rfl
  · by_cases hzero : s.arg1 = 0
    · rw [exec_buildRhr_of_zero hzero] at hexec
      exact (failed (Host.Outcome.next.inj hexec).symm).elim
    · rw [exec_buildRhr_of_ne_zero hzero] at hexec
      obtain rfl := Host.Outcome.next.inj hexec
      exact ⟨_, s.frame_emit (by simp)⟩
  · rw [exec_buildWsr] at hexec
    obtain rfl := Host.Outcome.next.inj hexec
    exact ⟨_, s.frame_emit (by simp)⟩
  · by_cases hwmr : wmrOk s = true
    · rw [exec_buildWmr_of_ok hwmr] at hexec
      obtain rfl := Host.Outcome.next.inj hexec
      exact ⟨_, s.clearFifo.frame_emit (by rw [multiRequest_length]; omega)⟩
    · rw [exec_buildWmr_of_not_ok hwmr] at hexec
      exact (failed (Host.Outcome.next.inj hexec).symm).elim

/-- Settles O31: what a successful BUILD leaves is a body with its CRC appended. -/
theorem builtFrameHasZeroResidue : Obligations.BuiltFrameHasZeroResidue := by
  intro s t i hbound hi hexec hok
  obtain ⟨body, hframe⟩ := exec_build_of_no_error hbound hi hexec hok
  rw [hframe, crc16_appendCrc]

end Sys2Proof.Machine
end

section
/-! PROOFS. Responses that parse well (43_frame_parser.md R215 to R219): the echo of a write, a corrupted CRC byte, a
trailing zero byte, and the builder's own frame received back. -/

namespace Sys2Proof.Machine

/-! ## The echo -/

/-- The write functions, each with its PARSE command (R218, R219). -/
def echoCommands : List (Instr × Byte) := [(.parseWsr, fcWriteSingle), (.parseWmr, fcWriteMultiple)]

theorem exec_echoCommand {i : Instr} {f : Byte} (hcmd : (i, f) ∈ echoCommands) (s : State) :
    exec i s = .next (s.parse f s.echoSuccess) ∧ (f = fcWriteSingle ∨ f = fcWriteMultiple) := by
  simp only [echoCommands, List.mem_cons, Prod.mk.injEq, List.not_mem_nil, or_false] at hcmd
  rcases hcmd with ⟨rfl, rfl⟩ | ⟨rfl, rfl⟩
  · exact ⟨rfl, .inl rfl⟩
  · exact ⟨rfl, .inr rfl⟩

/-- A write response of eight bytes that passes every check returns its echo (R218, R219). -/
theorem exec_echoCommand_of_good {i : Instr} {f : Byte} {s : State} (hcmd : (i, f) ∈ echoCommands) (hlen : s.rxLen = 8)
    (haddr : s.rxByte 0 = s.slave) (hfc : s.rxByte 1 = f)
    (hcrc : be16 (s.rxByte 7) (s.rxByte 6) = crc16 (s.rxPrefix 6)) : exec i s = .next s.echoSuccess := by
  obtain ⟨hexec, hf⟩ := exec_echoCommand hcmd s
  have hlen' : s.rxLen.toNat = 8 := by rw [hlen]; rfl
  have not_exception : f ≠ f ||| 0x80 ∧ f ≠ fcReadHolding := by rcases hf with rfl | rfl <;> decide
  have hlengthOk : lengthOk f s.rxByte 8 s.arg1.toNat = true :=
    lengthOk_iff.2 (.inr (.inr ⟨fun hexc => not_exception.1 (hfc.symm.trans hexc.2), not_exception.2, rfl⟩))
  have hcode : parseCode f s.rxByte s.rxLen.toNat s.arg1.toNat s.slave = .none := by
    rw [hlen']
    exact (parseCode_of_good_crc hlengthOk haddr hfc hcrc).trans (if_neg fun hread => not_exception.2 hread.1)
  rw [hexec, State.parse_eq, if_pos hcode]

/-- Settles O36: the command ends in `echoSuccess`, which reads ARG0 and ARG1 nowhere. -/
theorem parseWriteReturnsTheEcho : Obligations.ParseWriteReturnsTheEcho := fun _ _ _ hcmd hlen haddr hfc hcrc =>
  exec_echoCommand_of_good hcmd hlen haddr hfc hcrc

/-- Settles O40: eight bytes received are the body of the request and its CRC, so that every check of the parser is met
by a byte of the builder. -/
theorem echoOfABuiltWriteParses : Obligations.EchoOfABuiltWriteParses := by
  intro s t r hbuild hslave hrx hbytes
  rw [exec_buildWsr] at hbuild
  obtain rfl := Host.Outcome.next.inj hbuild
  have hlen : r.rxLen = 8 := hrx
  have hreceived : r.rxPrefix 8 = appendCrc (shortRequest s.slave fcWriteSingle s.arg0 s.arg1) := by
    rw [← s.frame_emit (by simp)]
    exact List.map_congr_left fun k hk => hbytes k (List.mem_range.1 hk)
  have hsplit : r.rxPrefix 8 = r.rxPrefix 6 ++ [r.rxByte 6, r.rxByte 7] := rfl
  rw [hsplit, appendCrc] at hreceived
  obtain ⟨hbody, hcrc⟩ := List.append_inj hreceived (by simp [State.rxPrefix_length])
  have hfields : [r.rxByte 0, r.rxByte 1, r.rxByte 2, r.rxByte 3, r.rxByte 4, r.rxByte 5] =
      [s.slave, fcWriteSingle, hi8 s.arg0, lo8 s.arg0, hi8 s.arg1, lo8 s.arg1] := hbody
  simp only [List.cons.injEq, and_true] at hfields hcrc
  obtain ⟨haddr, hfc, ha1, ha0, hv1, hv0⟩ := hfields
  have hparse : exec .parseWsr r = .next r.echoSuccess := by
    refine exec_echoCommand_of_good (f := fcWriteSingle) (by simp [echoCommands]) hlen (haddr.trans hslave.symm) hfc ?_
    rw [hcrc.1, hcrc.2, be16_hi8_lo8, hbody]
  refine ⟨r.echoSuccess, hparse, rfl, ?_, ?_⟩
  · rw [State.echoSuccess, State.complete_res0, ha1, ha0, be16_hi8_lo8]
  · rw [State.echoSuccess, State.complete_res1, hv1, hv0, be16_hi8_lo8]

/-! ## A response that parses well, changed or prolonged -/

/-- A PARSE that reports no error passed every check (R201, R213). -/
theorem parseCode_of_no_error {i : Instr} {f : Byte} {s t : State} (hcmd : (i, f) ∈ parseCommands)
    (hexec : exec i s = .next t) (hok : t.errCode = .none) :
    parseCode f s.rxByte s.rxLen.toNat s.arg1.toNat s.slave = .none := by
  by_contra hfail
  rw [exec_parseCommand_of_failure hcmd rfl hfail] at hexec
  obtain rfl := Host.Outcome.next.inj hexec
  exact hfail hok

/-- The length check reads no byte but the function code (R202). -/
theorem lengthOk_congr {b b' : Nat → Byte} (h : b' 1 = b 1) (f : Byte) (len n : Nat) :
    lengthOk f b' len n = lengthOk f b len n := by
  rw [lengthOk, lengthOk, h]

/-- Of a response that parses well, a change of one CRC byte alone leaves a CRC_MISMATCH (R211). -/
theorem parseCode_of_corrupted_crc {f : Byte} {b b' : Nat → Byte} {len n j : Nat} {slave : Byte}
    (hgood : parseCode f b len n slave = .none) (hj : j + 1 = len ∨ j + 2 = len) (hdiff : b' j ≠ b j)
    (hsame : ∀ k, k < len → k ≠ j → b' k = b k) : parseCode f b' len n slave = .crcMismatch := by
  obtain ⟨hlen, haddr, -, hfc, hcrc, -⟩ := parseCode_eq_none hgood
  have h5 := five_le_of_lengthOk hlen
  have h0 : b' 0 = b 0 := hsame 0 (by omega) (by omega)
  have h1 : b' 1 = b 1 := hsame 1 (by omega) (by omega)
  have hbody : (List.range (len - 2)).map b' = (List.range (len - 2)).map b :=
    List.map_congr_left fun k hk => by
      have := List.mem_range.1 hk
      exact hsame k (by omega) (by omega)
  refine parseCode_of_wrong_crc ((lengthOk_congr h1 f len n).trans hlen) (h0.trans haddr) (h1.trans hfc) ?_
  rw [hbody, ← hcrc]
  intro heq
  obtain ⟨hhigh, hlow⟩ := be16_inj heq
  rcases hj with rfl | rfl
  · exact hdiff hhigh
  · exact hdiff hlow

/-- Settles O38: both CRC bytes lie past the address and the function code, and the CRC is taken of neither. -/
theorem corruptedCrcByteIsReported : Obligations.CorruptedCrcByteIsReported := by
  intro s₁ s₂ t₁ i j hi hexec hok hslave harg1 hrxLen hj hdiff hsame
  obtain ⟨f, hcmd⟩ : ∃ f, (i, f) ∈ parseCommands := by simpa [parseCommands, exists_or] using hi
  have hgood := parseCode_of_no_error hcmd hexec hok
  have hcode : parseCode f s₂.rxByte s₂.rxLen.toNat s₂.arg1.toNat s₂.slave = .crcMismatch := by
    rw [hrxLen, harg1, hslave]
    exact parseCode_of_corrupted_crc hgood hj hdiff hsame
  exact exec_parseCommand_of_failure hcmd hcode (by decide)

/-- With a CRC's low byte folded in, the high byte followed by 0x00 is the CRC again (note on V-PAR-28). -/
theorem be16_zero_hi8 (c : Half) : be16 0x00 (hi8 c) = crcStep c (lo8 c) := by
  apply BitVec.eq_of_toNat_eq
  rw [crcStep_lo8, be16_toNat, BitVec.toNat_setWidth_of_le (by decide)]
  simp

/-- Settles O39: the longer response meets every check of the shorter, its CRC by `be16_zero_hi8`, and returns the same
registers. -/
theorem trailingZeroByteIsAccepted : Obligations.TrailingZeroByteIsAccepted := by
  intro s₁ s₂ t₁ hexec hok hslave harg1 _ hrxLen hsame hzero
  obtain ⟨hgood, rfl⟩ := execParseRhr_of_no_error hexec hok
  have hlen := rhr_length hgood
  obtain ⟨-, haddr, -, hfc, hcrc, hcount⟩ := parseCode_eq_none hgood
  have hgood₂ : exec .parseRhr s₂ = .next s₂.readSuccess := by
    refine exec_parseRhr_of_good (by rw [harg1, hrxLen]; omega) ?_ ?_ ?_ ?_
    · rw [hsame 0 (by omega), haddr, hslave]
    · rw [hsame 1 (by omega), hfc]
    · obtain ⟨m, hm⟩ : ∃ m, s₁.rxLen.toNat = m + 2 := ⟨s₁.rxLen.toNat - 2, by omega⟩
      rw [hm] at hcrc hzero hsame hrxLen
      have hfront : s₂.rxPrefix m = s₁.rxPrefix m := State.rxPrefix_congr fun k hk => hsame k (by omega)
      have hcrc : be16 (s₁.rxByte (m + 1)) (s₁.rxByte m) = crc16 (s₁.rxPrefix m) := hcrc
      rw [hrxLen, show m + 2 + 1 - 1 = m + 2 by omega, show m + 2 + 1 - 2 = m + 1 by omega, hzero,
        State.rxPrefix_succ, crc16_concat, hfront, hsame (m + 1) (by omega), hsame m (by omega), ← hcrc]
      simpa using be16_zero_hi8 (be16 (s₁.rxByte (m + 1)) (s₁.rxByte m))
    · rw [hsame 2 (by omega), hcount rfl, harg1]
  refine ⟨s₂.readSuccess, hgood₂, rfl, by simp [harg1], fun i hi => ?_⟩
  have hi : i < s₁.arg1.toNat := hi
  rw [State.rdata_readSuccess s₁ hi, State.rdata_readSuccess s₂ (by rwa [harg1]), hsame _ (by omega), hsame _ (by omega)]

end Sys2Proof.Machine
end

section
/-! PROOFS. Host reads (40_command_interface.md R125, R130; 20_memory.md R65, R69): the registers and buffers while idle,
the draws while busy, and what a read leaves alone. -/

namespace Sys2Proof.Machine

/-! ## The answers of a read -/

/-- Idle, a read gives the value held and changes nothing else (R130). -/
theorem exec_rdName_of_idle {s : State} (hidle : s.busy = false) (off : Offset) :
    exec (.rdName off) s = .next { s with readData := s.exactWord off } := by
  simp only [exec, execRdName, s.readWord_of_idle off hidle, hidle, Bool.false_and, Bool.false_eq_true, if_false]

/-- Busy, a read of STATUS or of result state takes a draw (R125). -/
theorem exec_rdName_of_drawn {s : State} (hbusy : s.busy = true) {off : Offset} (h : drawsWhileBusy off = true) :
    exec (.rdName off) s = .next { s with readData := s.readWord off, draws := s.draws + 1 } := by
  simp only [exec, execRdName, hbusy, h, Bool.and_self, if_true]

/-- Settles O55: a read writes two fields of the model's own, and the value held depends on neither. -/
theorem readsHaveNoSideEffect : Obligations.ReadsHaveNoSideEffect := by
  intro s off
  cases hbusy : s.busy with
  | true => exact ⟨_, rfl, rfl, fun hidle => absurd hidle (by decide)⟩
  | false =>
    have again : exec (.rdName off) { s with readData := s.exactWord off } =
        .next { s with readData := s.exactWord off } :=
      exec_rdName_of_idle (s := { s with readData := s.exactWord off }) hbusy off
    exact ⟨_, exec_rdName_of_idle hbusy off, rfl, fun _ => ⟨_, again, rfl⟩⟩

/-! ## The registers -/

theorem eq_ofNat_of_toNat {w : Word} {n : Nat} (h : w.toNat = n) : w = BitVec.ofNat 32 n := by
  rw [← h, BitVec.ofNat_toNat, BitVec.setWidth_eq]

theorem setWidth_eq_ofNat {n : Nat} (x : BitVec n) : x.setWidth 32 = BitVec.ofNat 32 x.toNat :=
  (BitVec.ofNat_toNat 32 x).symm

/-- The STATUS word of an idle core whose Q is in bounds, so that WCNT loses nothing of its length (R25). -/
theorem State.statusWord_of_idle {s : State} (hidle : s.busy = false) (hbound : s.fifo.length ≤ 123) :
    s.statusWord.toNat = 2 * s.done.toNat + (if s.errCode = .none then 0 else 4) + 8 * s.ign.toNat +
      16 * s.wovf.toNat + 256 * s.fifo.length := by
  have herr : 4 * s.errFlag.toNat = if s.errCode = .none then 0 else 4 := by
    by_cases hnone : s.errCode = .none
    · rw [if_pos hnone, Bool.eq_false_iff.2 (mt s.errFlag_eq.1 (not_not.2 hnone))]
      rfl
    · rw [if_neg hnone, s.errFlag_eq.2 hnone]
      rfl
  rw [s.statusWord_toNat, hidle, herr, Nat.mod_eq_of_lt (by omega), Bool.toNat_false, Nat.zero_add]

/-- Settles O52: at each of the fourteen offsets the value held is the register's own word, or 0. -/
theorem idleReadsReturnTheRegisters : Obligations.IdleReadsReturnTheRegisters := by
  intro s hidle hbound reads
  have held {off : Offset} {n : Nat} (h : s.exactWord off = BitVec.ofNat 32 n) : reads off n := by
    change exec (.rdName off) s = _
    rw [exec_rdName_of_idle hidle, h]
  exact ⟨held (eq_ofNat_of_toNat s.ctrlWord_toNat), held (eq_ofNat_of_toNat (State.statusWord_of_idle hidle hbound)),
    held rfl, held (setWidth_eq_ofNat s.slave), held (setWidth_eq_ofNat s.arg0), held (setWidth_eq_ofNat s.arg1),
    held (setWidth_eq_ofNat s.txLen), held (setWidth_eq_ofNat s.rxLen), held (setWidth_eq_ofNat s.crcAcc), held rfl,
    held rfl, held (eq_ofNat_of_toNat s.errWord_toNat), held (setWidth_eq_ofNat s.res0),
    held (setWidth_eq_ofNat s.res1)⟩

/-! ## The buffers -/

/-- Settles O53: the value held is four bytes of TXBUF or RXBUF, an entry of RDATA, or 0. -/
theorem idleReadsReturnTheBuffers : Obligations.IdleReadsReturnTheBuffers := by
  intro s off hidle _
  refine ⟨fun htx => ⟨_, exec_rdName_of_idle hidle off, rfl, fun i hi => ?txbuf⟩,
    fun hrx => ⟨_, exec_rdName_of_idle hidle off, rfl, fun i hi => ?rxbuf⟩, fun hrdata => ?rdata, fun hres => ?reserved⟩
  case txbuf =>
    rw [s.exactWord_buffer (by omega), s.lane_wordAt _ i hi, State.txByte]
    congr 2
    simp only [Reg.txbuf]
    omega
  case rxbuf =>
    rw [s.exactWord_buffer (by omega), s.lane_wordAt _ i hi, State.rxByte]
    congr 2
    simp only [Reg.rxbuf]
    omega
  case rdata => rw [exec_rdName_of_idle hidle, s.exactWord_rdata hrdata, setWidth_eq_ofNat]
  case reserved => rw [exec_rdName_of_idle hidle, s.exactWord_reserved (.inr hres)]

/-- An idle write of a word of RXBUF (R131). -/
theorem exec_wrRxbuf_of_idle {s : State} (hidle : s.busy = false) (k : Byte) (v : Word) :
    exec (.wrRxbuf k v) s = .next (s.storeWord (0x200 + k.toNat) v) :=
  congrArg Host.Outcome.next (State.unlessBusy_of_idle _ hidle)

/-- The bus word at the base of a stored word is that word (R65). -/
theorem State.wordAt_storeWord (s : State) (base : Nat) (v : Word) : (s.storeWord base v).wordAt base = v := by
  have hbyte (i : Nat) (hi : i < 4) := s.byteAt_storeWord_lane base v hi
  have h0 : (s.storeWord base v).byteAt base = lane v 0 := hbyte 0 (by decide)
  rw [State.wordAt, h0, hbyte 1 (by decide), hbyte 2 (by decide), hbyte 3 (by decide), packLanes_lane]

/-- Settles O47: the read of the offset gives the bus word stored there. -/
theorem rxbufWriteThenReadReturnsTheWord : Obligations.RxbufWriteThenReadReturnsTheWord := by
  intro s k v hidle _
  have hoff : (0x2#4 ++ k).toNat = 0x200 + k.toNat := rxbufOffset_toNat k
  have hk := k.isLt
  have hread : (s.storeWord (0x200 + k.toNat) v).exactWord (0x2#4 ++ k) = v := by
    rw [State.exactWord_buffer _ (by omega), hoff, State.wordAt_storeWord]
  refine ⟨{ s.storeWord (0x200 + k.toNat) v with readData := v }, ?_, rfl⟩
  have hidle' : (s.storeWord (0x200 + k.toNat) v).busy = false := hidle
  simp only [execAll, exec_wrRxbuf_of_idle hidle, exec_rdName_of_idle hidle', hread]

/-! ## Reads while busy -/

theorem drawsWhileBusy_of_result {off : Offset} (h : isResultState off = true) : drawsWhileBusy off = true := by
  rw [drawsWhileBusy, h, Bool.or_true]

/-- Busy, STATUS has the bits of result state from a draw and the others from the STATUS word (R125). -/
theorem State.readWord_status_of_busy {s : State} (hbusy : s.busy = true) (i : Nat) :
    (s.readWord 0x004#12).getLsbD i =
      if statusDrawn.getLsbD i then (Config.freeWord s.draws).getLsbD i else s.statusWord.getLsbD i := by
  have hword : s.readWord 0x004#12 =
      (s.statusWord &&& ~~~statusDrawn) ||| (Config.freeWord s.draws &&& statusDrawn) := by
    rw [State.readWord, hbusy]
    rfl
  rw [hword, BitVec.getLsbD_or, BitVec.getLsbD_and, BitVec.getLsbD_and, BitVec.getLsbD_not]
  by_cases hi : i < 32
  · cases statusDrawn.getLsbD i <;> simp [hi]
  · have hout {x : Word} : x.getLsbD i = false := BitVec.getLsbD_of_ge x i (by omega)
    simp [hout]

/-- The bits of STATUS that are drawn (R125). -/
theorem statusDrawn_getLsbD (i : Nat) : statusDrawn.getLsbD i = true ↔ i = 2 ∨ i = 4 ∨ (8 ≤ i ∧ i ≤ 15) := by
  by_cases hi : i < 32
  · have below : ∀ i < 32, statusDrawn.getLsbD i = true ↔ i = 2 ∨ i = 4 ∨ (8 ≤ i ∧ i ≤ 15) := by decide
    exact below i hi
  · rw [BitVec.getLsbD_of_ge _ _ (by omega)]
    simp
    omega

/-- BUSY is held in STATUS alone (R25). -/
theorem State.exactWord_withBusy (s : State) {busy : Bool} {off : Offset} (h : off ≠ 0x004#12) :
    State.exactWord { s with busy := busy } off = s.exactWord off := by
  have hstatus : off ≠ Reg.status := h
  simp only [State.exactWord, hstatus, if_false]
  rfl

/-- Settles O54: result state gives the draw, STATUS a mix of the draw and the word held, every other offset the value
held, which does not depend on BUSY. -/
theorem busyReadsDrawTheResultState : Obligations.BusyReadsDrawTheResultState := by
  intro s off hinv hbusy _ result
  have hresult : isResultState off = true ↔ result := isResultState_iff off
  refine ⟨fun h => ?drawn, ?status, fun hnot hstatus => ?held⟩
  case drawn =>
    rw [exec_rdName_of_drawn hbusy (drawsWhileBusy_of_result (hresult.2 h)), s.readWord_of_result hbusy (hresult.2 h)]
  case status =>
    rintro rfl
    have hbit := State.readWord_status_of_busy hbusy
    have exact_bit {i : Nat} (h : ¬(i = 2 ∨ i = 4 ∨ (8 ≤ i ∧ i ≤ 15))) :
        (s.readWord 0x004#12).getLsbD i = s.statusWord.getLsbD i :=
      (hbit i).trans (if_neg (mt (statusDrawn_getLsbD i).1 h))
    obtain ⟨h0, h1, h3, hzero⟩ := s.statusWord_bits_of_busy hbusy (hinv.notDoneWhileBusy hbusy)
    exact ⟨_, exec_rdName_of_drawn hbusy rfl, rfl, (exact_bit (by omega)).trans h0, (exact_bit (by omega)).trans h1,
      (exact_bit (by omega)).trans h3, fun i _ hi => (hbit i).trans (if_pos ((statusDrawn_getLsbD i).2 hi)),
      fun i hi => (exact_bit (by omega)).trans (hzero i hi)⟩
  case held =>
    have hnodraw : drawsWhileBusy off = false := by
      simp [drawsWhileBusy, hstatus, Bool.eq_false_iff.2 (mt hresult.1 hnot)]
    exact ⟨_, _, exec_rdName_of_not_drawn hnodraw s, exec_rdName_of_not_drawn hnodraw _,
      by simp only [s.exactWord_withBusy hstatus]⟩

end Sys2Proof.Machine
end

section
/-! PROOFS. Host writes while busy (40_command_interface.md R121, R124): dropped with IGN, taking effect, or ignored. -/

namespace Sys2Proof.Machine

/-- Settles O48: the offset decides the instruction, and only the operands, CMD, WFIFO and RXBUF are under the busy-write
rule. -/
theorem busyWritesFollowTheirOffset : Obligations.BusyWritesFollowTheirOffset := by
  intro s off v rest hbusy halign hagenda dropped
  have hstep := step_access hagenda
  have drops (u : State) : Host.Outcome.next (φ := Fault) (ρ := Refusal) (State.unlessBusy { s with agenda := rest } u) =
      .next { s with agenda := rest, ign := true } := congrArg _ (State.unlessBusy_of_busy u hbusy)
  refine ⟨fun h => ?dropped, ?ctrl, ?status, ?crc, ?crcData, fun hnot heffect => ?ignored⟩
  case dropped =>
    rcases h with hreg | hbuf
    · simp only [List.mem_cons, List.not_mem_nil, or_false] at hreg
      rcases hreg with rfl | rfl | rfl | rfl | rfl | rfl <;> exact hstep.trans (drops _)
    · rw [hstep, decode_write_of_inRxbuf v ((wordAligned_iff off).2 halign) ((inRxbuf_iff off).2 hbuf)]
      exact drops _
  case ctrl => rintro rfl; exact hstep
  case status => rintro rfl; exact hstep
  case crc => rintro rfl; exact hstep
  case crcData => rintro rfl; exact hstep
  case ignored =>
    obtain ⟨hreg, hbuf⟩ := not_or.1 hnot
    have hreadonly : off ∉ writableRegisters := by
      simp only [writableRegisters, List.mem_cons, List.not_mem_nil, or_false, not_or] at hreg heffect ⊢
      tauto
    rw [hstep, decode_write_of_not_writable v halign hreadonly hbuf]
    rfl

end Sys2Proof.Machine
end

section
/-! PROOFS. The platform and the numbering (60_exceptions.md R240, R252): where `irq` goes, and the numbers of the error
codes. -/

namespace Sys2Proof.Machine

/-- Settles O20: the numbers are written out in `ErrorCode.bits`. -/
theorem errorCodesAreNumbered : Obligations.ErrorCodesAreNumbered :=
  ⟨rfl, rfl, rfl, rfl, rfl, rfl, rfl, rfl, rfl⟩

/-- Settles O59: the input that IRQ_LINE names is driven by its polarity and read by its trigger, any other by nothing. -/
theorem irqReachesTheLineOfThePlatform : Obligations.IrqReachesTheLineOfThePlatform := by
  intro s t controller number
  refine ⟨fun hrouted => ?driven, fun hother => ?other⟩
  case driven =>
    have hr := (irqRoutedTo_iff controller number).2 hrouted
    refine ⟨?_, ?_⟩
    · rw [State.irqLevelAt, hr]
      cases Config.irqLine.polarity <;> rfl
    · rw [irqRequestAt, hr, Bool.true_and]
      cases Config.irqLine.trigger
      case level => exact State.irq_eq_true_iff
      case edge => simp [requestSeen, State.irq]
  case other =>
    have hr : irqRoutedTo controller number = false := Bool.eq_false_iff.2 (mt (irqRoutedTo_iff _ _).1 hother)
    simp [State.irqLevelAt, irqRequestAt, hr]

end Sys2Proof.Machine
end

section
/-! PROOFS. The accesses of `rxbytes` (30_encoding.md R98; 20_memory.md R65, R66): what the words and the length leave. -/

namespace Sys2Proof.Machine

/-- What a write of word `j` of `rxbytes` does while idle: past RXBUF, nothing (R98, R121; log entry 20). -/
def State.storeRxWord (s : State) (j : Nat) (v : Word) : State :=
  if j < 64 then s.storeWord (0x200 + 4 * j) v else s

theorem rxWordOffset_aligned {j : Nat} (h : j < 896) : (rxWordOffset j).toNat % 4 = 0 := by
  rw [rxWordOffset_toNat h]
  omega

/-- Inside the window the word's write is an RXBUF write below word 64, and ignored from there on. -/
theorem exec_rxWord {s : State} (hidle : s.busy = false) {j : Nat} (hj : j < 896) (v : Word) :
    exec (decode (.access (wr (rxWordOffset j) v))) s = .next (s.storeRxWord j v) := by
  have hoff := rxWordOffset_toNat hj
  have halign := rxWordOffset_aligned hj
  by_cases hin : j < 64
  · have hbuf : inRxbuf (rxWordOffset j) = true := (inRxbuf_iff _).2 (by omega)
    have hlow : ((rxWordOffset j).extractLsb' 0 8).toNat = 4 * j := by
      rw [BitVec.extractLsb'_toNat, hoff, Nat.shiftRight_zero]
      omega
    rw [wr, decode_write_of_inRxbuf v ((wordAligned_iff _).2 halign) hbuf, exec_wrRxbuf_of_idle hidle, hlow,
      State.storeRxWord, if_pos hin]
  · rw [wr, decode_write_of_not_writable v halign (not_mem_writableRegisters (by omega)) (by omega),
      State.storeRxWord, if_neg hin]
    rfl

/-- The first word carries the first four bytes, with missing lanes 0, and the rest follow from the next word on. -/
theorem Asm.rxWords_of_ne_nil {bs : List Byte} (h : bs ≠ []) (j : Nat) :
    Asm.rxWords j bs =
      wr (rxWordOffset j) (packLanes (bs.getD 0 0) (bs.getD 1 0) (bs.getD 2 0) (bs.getD 3 0)) ::
        Asm.rxWords (j + 1) (bs.drop 4) := by
  match bs with
  | [] => exact absurd rfl h
  | [_] => rfl
  | [_, _] => rfl
  | [_, _, _] => rfl
  | _ :: _ :: _ :: _ :: _ => rfl

/-- Lane `i` of the first word is byte `i`. -/
theorem lane_packLanes_getD (bs : List Byte) {i : Nat} (h : i < 4) :
    lane (packLanes (bs.getD 0 0) (bs.getD 1 0) (bs.getD 2 0) (bs.getD 3 0)) i = bs.getD i 0 := by
  obtain ⟨h0, h1, h2, h3⟩ := lane_packLanes (bs.getD 0 0) (bs.getD 1 0) (bs.getD 2 0) (bs.getD 3 0)
  interval_cases i
  · exact h0
  · exact h1
  · exact h2
  · exact h3

/-- `t` is `s` with the bytes in RXBUF from word `j` on, as far as RXBUF goes, and at most RXBUF from there on changed. -/
structure RxDelivered (s t : State) (j : Nat) (bs : List Byte) : Prop where
  registers : { t with mem := s.mem } = s
  outside : ∀ a, a < 0x200 + 4 * j ∨ 0x300 ≤ a → t.byteAt a = s.byteAt a
  delivered : ∀ i, i < bs.length → 4 * j + i < 256 → t.rxByte (4 * j + i) = bs.getD i 0

theorem RxDelivered.busy_eq {s t : State} {j : Nat} {bs : List Byte} (h : RxDelivered s t j bs) : t.busy = s.busy := by
  have hbusy := congrArg State.busy h.registers
  exact hbusy

theorem RxDelivered.nil (s : State) (j : Nat) : RxDelivered s s j [] :=
  ⟨rfl, fun _ _ => rfl, fun _ hi _ => absurd hi (Nat.not_lt_zero _)⟩

/-- One word delivers its four bytes. -/
theorem State.storeRxWord_delivered (s : State) (j : Nat) (bs : List Byte) :
    RxDelivered s (s.storeRxWord j (packLanes (bs.getD 0 0) (bs.getD 1 0) (bs.getD 2 0) (bs.getD 3 0))) j
      (bs.take 4) := by
  unfold State.storeRxWord
  split
  case isTrue hin =>
    refine ⟨rfl, fun a ha => ?_, fun i hi _ => ?_⟩
    · rw [State.byteAt_storeWord, if_pos (by omega)]
    · have hi : i < 4 ∧ i < bs.length := by simpa using hi
      rw [State.rxByte, ← Nat.add_assoc, State.byteAt_storeWord_lane _ _ _ hi.1, lane_packLanes_getD bs hi.1]
      simp [List.getD, hi.1]
  case isFalse hout => exact ⟨rfl, fun _ _ => rfl, fun i _ hi => by omega⟩

/-- The first word's bytes stay while the later words deliver theirs. -/
theorem RxDelivered.cons {s t u : State} {j : Nat} {bs : List Byte} (hfirst : RxDelivered s t j (bs.take 4))
    (hrest : RxDelivered t u (j + 1) (bs.drop 4)) : RxDelivered s u j bs where
  registers := by
    have h : { u with mem := s.mem } = { t with mem := s.mem } :=
      congrArg (fun v : State => { v with mem := s.mem }) hrest.registers
    exact h.trans hfirst.registers
  outside a ha := (hrest.outside a (by omega)).trans (hfirst.outside a ha)
  delivered i hi hcap := by
    by_cases hword : i < 4
    · rw [State.rxByte, hrest.outside _ (by simp only [Reg.rxbuf]; omega)]
      refine (hfirst.delivered i (by simp; omega) hcap).trans ?_
      simp [List.getD, hword]
    · obtain ⟨k, rfl⟩ : ∃ k, i = 4 + k := ⟨i - 4, by omega⟩
      have hnext := hrest.delivered k (by simp; omega) (by omega)
      rw [show 4 * (j + 1) + k = 4 * j + (4 + k) by omega] at hnext
      rw [hnext]
      simp [List.getD]

/-- The words deliver their bytes, by induction on the number of words. -/
theorem execAll_rxWords {n : Nat} {bs : List Byte} (hn : bs.length ≤ 4 * n) {j : Nat}
    (hwindow : 4 * j + bs.length ≤ 3584) {s : State} (hidle : s.busy = false) :
    ∃ t, execAll ((Asm.rxWords j bs).map fun a => decode (.access a)) s = .next t ∧ RxDelivered s t j bs := by
  induction n generalizing bs j s with
  | zero =>
    obtain rfl := List.eq_nil_of_length_eq_zero (by omega : bs.length = 0)
    exact ⟨s, rfl, .nil s j⟩
  | succ n ih =>
    by_cases hnil : bs = []
    · subst hnil
      exact ⟨s, rfl, .nil s j⟩
    · have hpos := List.length_pos_of_ne_nil hnil
      have hfirst := s.storeRxWord_delivered j bs
      obtain ⟨t, hexec, hrest⟩ := ih (bs := bs.drop 4) (by rw [List.length_drop]; omega) (j := j + 1)
        (by rw [List.length_drop]; omega) (hfirst.busy_eq.trans hidle)
      refine ⟨t, ?_, hfirst.cons hrest⟩
      rw [Asm.rxWords_of_ne_nil hnil, List.map_cons, execAll, exec_rxWord hidle (by omega)]
      exact hexec

theorem execAll_append {is js : List Instr} {s t : State} (h : execAll is s = .next t) :
    execAll (is ++ js) s = execAll js t := by
  induction is generalizing s with
  | nil =>
    obtain rfl := Host.Outcome.next.inj h
    rfl
  | cons i is ih =>
    rw [execAll] at h
    split at h
    case h_1 u hu =>
      rw [List.cons_append, execAll, hu]
      exact ih h
    all_goals exact nomatch h

/-- An idle write of RX_LEN (R131). -/
theorem exec_wrRxLen_of_idle {s : State} (hidle : s.busy = false) (v : Word) :
    exec (.wrRxLen v) s = .next { s with rxLen := rxLenField v } :=
  congrArg Host.Outcome.next (State.unlessBusy_of_idle _ hidle)

theorem rxLenField_ofNat {n : Nat} (h : n < 2 ^ 32) : rxLenField (BitVec.ofNat 32 n) = BitVec.ofNat 9 (min n 256) := by
  rw [rxLenField, BitVec.toNat_ofNat, Nat.mod_eq_of_lt h]

/-- `rxbytes` leaves the first 256 bytes received, RX_LEN at their number, and the rest as it was (R66, R98). -/
theorem execAll_rxbytes {s : State} {bytes : List Byte} (hidle : s.busy = false) (hlen : bytes.length < 2 ^ 32) :
    ∃ t, execAll ((Asm.rxbytes bytes).map fun a => decode (.access a)) s = .next t ∧ t.received = bytes.take 256 ∧
      (∀ a, (a < 0x200 ∨ 0x300 ≤ a) → t.byteAt a = s.byteAt a) ∧
      { t with mem := s.mem } = { s with rxLen := BitVec.ofNat 9 (min bytes.length 256) } := by
  have hwords : (bytes.take 3584).length ≤ 3584 := List.length_take_le ..
  obtain ⟨u, hexec, hrx⟩ := execAll_rxWords (n := 896) (j := 0) (by omega) (by omega) hidle
  have hrxLen := exec_wrRxLen_of_idle (hrx.busy_eq.trans hidle) (BitVec.ofNat 32 bytes.length)
  rw [rxLenField_ofNat hlen] at hrxLen
  refine ⟨{ u with rxLen := BitVec.ofNat 9 (min bytes.length 256) }, ?_, ?received, hrx.outside, ?registers⟩
  · rw [Asm.rxbytes, List.map_append]
    refine (execAll_append hexec).trans ?_
    have hdecode : decode (.access (wr Reg.rxLen (BitVec.ofNat 32 bytes.length))) =
      .wrRxLen (BitVec.ofNat 32 bytes.length) := rfl
    rw [List.map_singleton, hdecode, execAll, hrxLen]
    rfl
  case received =>
    have hnum : (BitVec.ofNat 9 (min bytes.length 256)).toNat = min bytes.length 256 := by
      rw [BitVec.toNat_ofNat]
      omega
    rw [State.received, hnum]
    refine List.ext_getElem (by simp [State.rxPrefix_length, Nat.min_comm]) fun i h₁ h₂ => ?_
    rw [State.rxPrefix_length] at h₁
    have hbyte := hrx.delivered i (by simp; omega) (by omega)
    simp only [State.rxPrefix, List.getElem_map, List.getElem_range, List.getElem_take]
    rw [Nat.mul_zero, Nat.zero_add] at hbyte
    refine hbyte.trans ?_
    simp [List.getD, show i < 3584 by omega, show i < bytes.length by omega]
  case registers =>
    exact congrArg (fun v : State => { v with rxLen := BitVec.ofNat 9 (min bytes.length 256) }) hrx.registers

/-- Settles O49: up to 256 bytes the first 256 are all of them. -/
theorem rxbytesDeliversTheFrame : Obligations.RxbytesDeliversTheFrame := by
  intro s bytes hidle hlen
  have h := execAll_rxbytes (bytes := bytes) hidle (by omega)
  rwa [List.take_of_length_le hlen, Nat.min_eq_left hlen] at h

/-- Settles O60: beyond 256 bytes RX_LEN is 256. -/
theorem longRxbytesAreTruncated : Obligations.LongRxbytesAreTruncated := by
  intro s bytes hidle hlong hlen
  have h := execAll_rxbytes hidle hlen
  rwa [Nat.min_eq_right (by omega)] at h

end Sys2Proof.Machine
end
